-- ==== Sys2Proof/Word.lean ====
section
/-! DEFINITION. The machine's words: bytes (general registers, timers, memory cells) and 16-bit words
(instructions, `PC`, `I`, stack entries). spec/00_scope.md R8, R10, R11. -/

namespace Sys2Proof

/-- A byte: a general register, a timer, `SP`, a memory cell. 00_scope R8. -/
abbrev Byte := BitVec 8

/-- Sixteen bits: an instruction word, `PC`, `I`, `IR`, a stack entry. 00_scope R8. -/
abbrev Word := BitVec 16

end Sys2Proof
end

