-- ==== Sys2Proof/Syntax.lean ====
section
/-! DEFINITION. The 35 instructions of spec/30_encoding.md R80, one constructor per row of
spec/opcode_table.json, in the table's order, with the operand fields of R71 and R72. -/

namespace Sys2Proof

/-- A register number, the 4-bit field `x` or `y`. 30_encoding R71, 10_state R21. -/
abbrev Reg := Fin 16

/-- A 12-bit address immediate, the field `nnn`. 30_encoding R71. -/
abbrev Addr12 := BitVec 12

/-- The instructions. 30_encoding R80. -/
inductive Instr where
  /-- 00E0 `CLS` -/
  | cls
  /-- 00EE `RET` -/
  | ret
  /-- 0nnn `SYS NNN`, every `nnn` but 0x0E0 and 0x0EE -/
  | sys (nnn : Addr12)
  /-- 1nnn `JP NNN` -/
  | jp (nnn : Addr12)
  /-- 2nnn `CALL NNN` -/
  | call (nnn : Addr12)
  /-- 3xnn `SE Vx,NN` -/
  | seImm (x : Reg) (nn : Byte)
  /-- 4xnn `SNE Vx,NN` -/
  | sneImm (x : Reg) (nn : Byte)
  /-- 5xy0 `SE Vx,Vy` -/
  | seReg (x y : Reg)
  /-- 6xnn `LD Vx,NN` -/
  | ldImm (x : Reg) (nn : Byte)
  /-- 7xnn `ADD Vx,NN` -/
  | addImm (x : Reg) (nn : Byte)
  /-- 8xy0 `LD Vx,Vy` -/
  | ldReg (x y : Reg)
  /-- 8xy1 `OR Vx,Vy` -/
  | orReg (x y : Reg)
  /-- 8xy2 `AND Vx,Vy` -/
  | andReg (x y : Reg)
  /-- 8xy3 `XOR Vx,Vy` -/
  | xorReg (x y : Reg)
  /-- 8xy4 `ADD Vx,Vy` -/
  | addReg (x y : Reg)
  /-- 8xy5 `SUB Vx,Vy` -/
  | subReg (x y : Reg)
  /-- 8xy6 `SHR Vx`; `y` is encoded and ignored -/
  | shr (x y : Reg)
  /-- 8xy7 `SUBN Vx,Vy` -/
  | subnReg (x y : Reg)
  /-- 8xyE `SHL Vx`; `y` is encoded and ignored -/
  | shl (x y : Reg)
  /-- 9xy0 `SNE Vx,Vy` -/
  | sneReg (x y : Reg)
  /-- Annn `LD I,NNN` -/
  | ldI (nnn : Addr12)
  /-- Bnnn `JP V0,NNN` -/
  | jpV0 (nnn : Addr12)
  /-- Cxnn `RND Vx,NN` -/
  | rnd (x : Reg) (nn : Byte)
  /-- Dxyn `DRW Vx,Vy,N`; `n` is a count, 0 to 15 -/
  | drw (x y : Reg) (n : Fin 16)
  /-- Ex9E `SKP Vx` -/
  | skp (x : Reg)
  /-- ExA1 `SKNP Vx` -/
  | sknp (x : Reg)
  /-- Fx07 `LD Vx,DT` -/
  | ldVxDt (x : Reg)
  /-- Fx0A `LD Vx,K` -/
  | ldVxK (x : Reg)
  /-- Fx15 `LD DT,Vx` -/
  | ldDtVx (x : Reg)
  /-- Fx18 `LD ST,Vx` -/
  | ldStVx (x : Reg)
  /-- Fx1E `ADD I,Vx` -/
  | addI (x : Reg)
  /-- Fx29 `LD F,Vx` -/
  | ldF (x : Reg)
  /-- Fx33 `LD B,Vx` -/
  | ldB (x : Reg)
  /-- Fx55 `LD [I],Vx` -/
  | storeRegs (x : Reg)
  /-- Fx65 `LD Vx,[I]` -/
  | loadRegs (x : Reg)
  deriving DecidableEq, Repr

end Sys2Proof
end

