-- ==== Sys2Proof/Config.lean ====
section
/-! DEFINITION. The fixed parameters of spec/00_scope.md R8, the font parameter of R9 with the default of
spec/10_state.md R36, and the free values that stand for the host's inputs. -/

namespace Sys2Proof.Config

/-- The highest address of memory (`MEM_SIZE` is 4096). 00_scope R8. -/
@[simp] abbrev memTop : Nat := 0xFFF

/-- `ROM_BASE`: where a ROM is loaded and the reset value of `PC`. 00_scope R8. -/
@[simp] abbrev romBase : Nat := 0x200

/-- `ROM_MAX`: the largest ROM, in bytes. 00_scope R8. -/
@[simp] abbrev romMax : Nat := 3584

/-- `FONT_BASE`: the address of the first font byte. 00_scope R8. -/
@[simp] abbrev fontBase : Nat := 0x050

/-- `FONT_SIZE`: 16 glyphs of 5 bytes. 00_scope R8. -/
@[simp] abbrev fontSize : Nat := 80

/-- `GLYPH_BYTES`. 00_scope R8. -/
@[simp] abbrev glyphBytes : Nat := 5

/-- `STACK_DEPTH`. 00_scope R8. -/
@[simp] abbrev stackDepth : Nat := 16

/-- Glyphs 0 to 3 of the default font. 10_state R36. -/
def font0to3 : Vector Byte 20 := #v[
  0xF0, 0x90, 0x90, 0x90, 0xF0,  0x20, 0x60, 0x20, 0x20, 0x70,
  0xF0, 0x10, 0xF0, 0x80, 0xF0,  0xF0, 0x10, 0xF0, 0x10, 0xF0]

/-- Glyphs 4 to 7 of the default font. 10_state R36. -/
def font4to7 : Vector Byte 20 := #v[
  0x90, 0x90, 0xF0, 0x10, 0x10,  0xF0, 0x80, 0xF0, 0x10, 0xF0,
  0xF0, 0x80, 0xF0, 0x90, 0xF0,  0xF0, 0x10, 0x20, 0x40, 0x40]

/-- Glyphs 8 to B of the default font. 10_state R36. -/
def font8toB : Vector Byte 20 := #v[
  0xF0, 0x90, 0xF0, 0x90, 0xF0,  0xF0, 0x90, 0xF0, 0x10, 0xF0,
  0xF0, 0x90, 0xF0, 0x90, 0x90,  0xE0, 0x90, 0xE0, 0x90, 0xE0]

/-- Glyphs C to F of the default font. 10_state R36. -/
def fontCtoF : Vector Byte 20 := #v[
  0xF0, 0x80, 0x80, 0x80, 0xF0,  0xE0, 0x90, 0x90, 0x90, 0xE0,
  0xF0, 0x80, 0xF0, 0x80, 0xF0,  0xF0, 0x80, 0xF0, 0x80, 0x80]

/-- `FONT`, at the default the spec gives (10_state R36). PRESUMED (log 1): the spec supplies these bytes from
general knowledge and leaves the parameter open. Unsafe for statements about `State.reset`'s font bytes;
`State.resetWith` takes any other table. -/
def font : Vector Byte 80 := font0to3 ++ font4to7 ++ font8toB ++ fontCtoF

/-- FREE VALUE: the keypad snapshot the host supplies with the `n`-th cycle, where the state does not hold it
(10_state R39: any 16 booleans). No body: nothing can be proved of it. DESIGN CHOICE (log 2), safe. -/
opaque hostKeys (n : Nat) : Vector Bool 16

/-- FREE VALUE: the random byte the host supplies with the `n`-th cycle, where the state does not hold it
(10_state R40: any byte, under no law). No body: nothing can be proved of it. DESIGN CHOICE (log 2), safe. -/
opaque hostRnd (n : Nat) : Byte

end Sys2Proof.Config
end

