-- ==== Sys2Proof/Machine/State.lean ====
section
/-! DEFINITION. The state of the core: everything spec/10_state.md R20 gives it, its value after reset (R35), the
fault record of spec/60_exceptions.md R223, and the reasons a step of the MODEL can stop. -/

namespace Sys2Proof.Machine

/-- Memory: the cells that differ from the reset contents, as (address, byte), addresses strictly rising.
An address that is not listed reads as `Memory.unlisted` says. 10_state R30. -/
abbrev Memory := List Host.Cell

/-- The framebuffer: 32 rows of 64 cells, `true` is on; row `y` first, then column `x`. 10_state R31. -/
abbrev Framebuffer := Vector (Vector Bool 64) 32

/-- A keypad snapshot: key `k` is pressed when entry `k` is `true`. 10_state R39. -/
abbrev Keys := Vector Bool 16

/-- What the host supplies with one cycle. 40_cycle R110. -/
structure CycleInput where
  /-- the keypad snapshot, 10_state R39 -/
  keys : Keys
  /-- the random byte, 10_state R40 -/
  rnd : Byte
  deriving DecidableEq, Repr

/-- The kind of access in a `MemoryOutOfBounds` record. 60_exceptions R223. -/
inductive Access where
  | fetch
  | read
  | write
  deriving DecidableEq, Repr

/-- The fault kinds of the SPEC with their `info`. 60_exceptions R223. They are values of the register `FAULT`,
not stops of the model: a cycle that raises one ends in a next state. -/
inductive FaultInfo where
  /-- code 1, raised by `CALL` with `SP = 16` (R221) -/
  | stackOverflow
  /-- code 2, raised by `RET` with `SP = 0` (R222) -/
  | stackUnderflow
  /-- code 3, raised by the fetch and the four memory instructions (R225); `addr` is the lowest bad address -/
  | memoryOutOfBounds (access : Access) (addr : Nat)
  /-- code 4, raised by the host action `rom_load` (R233) -/
  | romTooLarge (len : Nat)
  /-- code 5, raised by `SKP` and `SKNP` (R226) -/
  | keyIndexOutOfRange (key : Byte)
  deriving DecidableEq, Repr

/-- The fault record held by `FAULT`. 60_exceptions R223; its `code` and `name` are functions of `info`. -/
structure FaultRecord where
  info : FaultInfo
  /-- the address of the instruction that faulted -/
  pc : Word
  /-- the instruction word, absent for a fetch fault and for `rom_load` -/
  word : Option Word
  deriving DecidableEq, Repr

/-- The state of the machine. 10_state R20; the last two fields are the model's own (log 2). -/
structure State where
  /-- `V[0..15]`; `V[15]` is VF. R21, R22 -/
  v : Vector Byte 16
  /-- `PC`. R23 -/
  pc : Word
  /-- `I`. R25 -/
  index : Word
  /-- `STACK[0..15]`. R26 -/
  stack : Vector Word 16
  /-- `SP`, 8 bits, legal values 0 to 16. R26 -/
  sp : Byte
  /-- `DT`. R27 -/
  dt : Byte
  /-- `ST`. R27 -/
  st : Byte
  /-- `IR`. R28 -/
  ir : Word
  /-- `MEM`. R30 -/
  mem : Memory
  /-- `FB`. R31 -/
  fb : Framebuffer
  /-- `FAULT`: `none` while running. R29 -/
  fault : Option FaultRecord
  /-- the inputs the host has lined up for the coming cycles, the next one first (model's own, log 2) -/
  inputs : List CycleInput
  /-- the number of the coming cycle's input, the index of the free values (model's own, log 2) -/
  inputIndex : Nat
  deriving DecidableEq, Repr

/-- Why a step of the MODEL stops. (The SPEC's faults are `FaultInfo`: they are next states.) -/
inductive Fault where
  /-- Raised by `CALL` and `RET` in a state whose `SP` is above 16. The spec says SP never leaves 0 to 16
  (10_state R26) and gives such a state no effect; no run from reset reaches one. DESIGN CHOICE (log 4), safe. -/
  | illegalStackPointer (sp : Byte)
  deriving DecidableEq, Repr

/-- Why the model gives an instruction no meaning. -/
inductive Refusal where
  /-- Raised by an arm of `exec` for an instruction without a meaning; no arm raises it: all 35 have one. Safe. -/
  | notModelled (mnemonic : String)
  deriving DecidableEq, Repr

/-- The machine right after `reset`. 10_state R35, 70_reset_and_hazards R250; memory lists nothing, so it reads as
the reset contents. `index`, `ir` and `fb` are the spec's decision D17 (log 11); the model's own `inputs` and
`inputIndex` are DESIGN CHOICE (log 2). -/
def State.reset : State where
  v := Vector.replicate 16 0
  pc := 0x0200
  index := 0
  stack := Vector.replicate 16 0
  sp := 0
  dt := 0
  st := 0
  ir := 0
  mem := []
  fb := Vector.replicate 32 (Vector.replicate 64 false)
  fault := none
  inputs := []
  inputIndex := 0

end Sys2Proof.Machine
end

