-- ==== Sys2Proof/Machine/Ops.lean ====
section
/-! DEFINITION. The named operations over memory and registers, raising a fault (one shared operation), and the
parts of the machine cycle around the execute step. spec/20_memory.md, spec/40_cycle.md, spec/60_exceptions.md. -/

namespace Sys2Proof.Machine

/-! ## Memory -/

/-- What an address that memory does not list reads as: the reset contents, `FONT` at 0x050 to 0x09F and zero
everywhere else. 10_state R30, R35. -/
def Memory.unlisted (a : Nat) : Byte :=
  if Config.fontBase ≤ a ∧ a < Config.fontBase + Config.fontSize then
    Config.font.toList.getD (a - Config.fontBase) 0
  else 0

/-- The byte at an address. 20_memory R50. -/
def Memory.read : Memory → Nat → Byte
  | [], a => Memory.unlisted a
  | (b, w) :: m, a => if a = b then w else Memory.read m a

/-- Memory without any cell at an address. -/
def Memory.erase : Memory → Nat → Memory
  | [], _ => []
  | (b, w) :: m, a => if a = b then Memory.erase m a else (b, w) :: Memory.erase m a

/-- Put a cell before the first cell of a higher address. -/
def Memory.insert : Memory → Nat → Byte → Memory
  | [], a, x => [(a, x)]
  | (b, w) :: m, a, x => if a < b then (a, x) :: (b, w) :: m else (b, w) :: Memory.insert m a x

/-- Write the byte at an address, keeping the canonical form: the byte an unlisted address reads as is not listed.
20_memory R52, R59. -/
def Memory.write (m : Memory) (a : Nat) (x : Byte) : Memory :=
  if x = Memory.unlisted a then m.erase a else (m.erase a).insert a x

/-- Bytes written to consecutive rising addresses. 20_memory R52, R55. -/
def Memory.writeList : Memory → Nat → List Byte → Memory
  | m, _, [] => m
  | m, a, x :: xs => Memory.writeList (m.write a x) (a + 1) xs

/-- `n` bytes read from consecutive rising addresses. 20_memory R52, R55. -/
def Memory.readList (m : Memory) : Nat → Nat → List Byte
  | _, 0 => []
  | a, n + 1 => m.read a :: Memory.readList m (a + 1) n

/-- The canonical form: addresses strictly rising, and no cell equal to what an unlisted address reads as. -/
def Memory.wf : Memory → Bool
  | [] => true
  | [(a, x)] => x != Memory.unlisted a
  | (a, x) :: (b, y) :: m => x != Memory.unlisted a && decide (a < b) && Memory.wf ((b, y) :: m)

/-- Every listed address is an address of memory, 0x000 to 0xFFF. 20_memory R50. -/
def Memory.inRange (m : Memory) : Bool := m.all (fun c => decide (c.1 ≤ Config.memTop))

/-- The bound check over the `n` addresses from `base`: the lowest one above 0xFFF, if there is one. Addresses are
exact sums (20_memory R64); `n = 0` accesses nothing. 20_memory R56, 60_exceptions R225. -/
def outOfBounds (base n : Nat) : Option Nat :=
  if 0 < n ∧ Config.memTop < base + n - 1 then some (max base (Config.memTop + 1)) else none

/-! ## Registers -/

/-- `V[x]`. 10_state R21. -/
def State.reg (s : State) (x : Reg) : Byte := s.v[x.val]

/-- `V[x] <- b`. -/
def State.setReg (s : State) (x : Reg) (b : Byte) : State := { s with v := s.v.set x.val b }

/-- The register number of VF. 10_state R22. -/
abbrev VF : Reg := 15

/-- `PC <- a`. -/
def State.setPc (s : State) (a : Word) : State := { s with pc := a }

/-- `I <- a`. -/
def State.setIndex (s : State) (a : Word) : State := { s with index := a }

/-- `DT <- b`. -/
def State.setDt (s : State) (b : Byte) : State := { s with dt := b }

/-- `ST <- b`. -/
def State.setSt (s : State) (b : Byte) : State := { s with st := b }

/-- `FB <- f`. -/
def State.setFb (s : State) (f : Framebuffer) : State := { s with fb := f }

/-- Store bytes at consecutive rising addresses. 20_memory R55. -/
def State.store (s : State) (a : Nat) (bs : List Byte) : State := { s with mem := s.mem.writeList a bs }

/-- `V[k] <- b` for the bytes of a list, `k` rising from the given number. 43_index_memory R176. -/
def regsFromList : Vector Byte 16 → Nat → List Byte → Vector Byte 16
  | v, _, [] => v
  | v, k, b :: bs => regsFromList (v.setIfInBounds k b) (k + 1) bs

/-- Load bytes into `V[0]`, `V[1]`, … 43_index_memory R176. -/
def State.loadRegs (s : State) (bs : List Byte) : State := { s with v := regsFromList s.v 0 bs }

/-- A skip adds a further 2 to `PC` when its condition holds. 41_flow R120, 40_cycle R102. -/
def State.skipIf (s : State) (c : Bool) : State := s.setPc (if c then s.pc + 2 else s.pc)

/-- `STACK[SP] <- a; SP <- SP + 1`. 41_flow R123. -/
def State.push (s : State) (a : Word) : State :=
  { s with stack := s.stack.setIfInBounds s.sp.toNat a, sp := s.sp + 1 }

/-- `SP <- SP - 1; PC <- a`, the popped entry kept. 41_flow R121. -/
def State.popTo (s : State) (a : Word) : State := { s with sp := s.sp - 1, pc := a }

/-! ## The host's inputs: 10_state R39, R40 -/

/-- The input of this cycle: the one the host has lined up, or a free value. One sample serves the whole cycle. -/
def State.input (s : State) : CycleInput :=
  match s.inputs with
  | i :: _ => i
  | [] => ⟨Config.hostKeys s.inputIndex, Config.hostRnd s.inputIndex⟩

/-- This cycle's `keys`. 10_state R39. -/
def State.keys (s : State) : Keys := s.input.keys

/-- This cycle's `rnd`. 10_state R40. -/
def State.rnd (s : State) : Byte := s.input.rnd

/-- Go on to the next cycle's input. -/
def State.takeInput (s : State) : State :=
  { s with inputs := s.inputs.tail, inputIndex := s.inputIndex + 1 }

/-! ## Faults: 60_exceptions R223, R224 -/

/-- The `code` of a fault kind. R223, the spec's own numbering (D22). -/
def FaultInfo.code : FaultInfo → Nat
  | .stackOverflow => 1
  | .stackUnderflow => 2
  | .memoryOutOfBounds _ _ => 3
  | .romTooLarge _ => 4
  | .keyIndexOutOfRange _ => 5

/-- The `name` of a fault kind. R223. -/
def FaultInfo.name : FaultInfo → String
  | .stackOverflow => "StackOverflow"
  | .stackUnderflow => "StackUnderflow"
  | .memoryOutOfBounds _ _ => "MemoryOutOfBounds"
  | .romTooLarge _ => "RomTooLarge"
  | .keyIndexOutOfRange _ => "KeyIndexOutOfRange"

/-- TAKING A FAULT, the one shared operation: `FAULT <- record`, nothing else. R224 (2). There is no return from a
fault: the one way out of the halted state is `State.reset` (R232, 70_reset_and_hazards R251). -/
def State.takeFault (s : State) (info : FaultInfo) (pc : Word) (word : Option Word) : State :=
  { s with fault := some ⟨info, pc, word⟩ }

/-- `raise` in an execute step: `PC` has been advanced, so the instruction is at `PC - 2`, and its word is in `IR`.
R224. `State.endCycle` then discards the cycle. -/
def State.raise (s : State) (info : FaultInfo) : State := s.takeFault info (s.pc - 2) (some s.ir)

/-- `raise` in the fetch: `PC` has not been advanced and there is no word. 40_cycle R101, R224. -/
def State.raiseFetch (s : State) (addr : Nat) : State :=
  s.takeFault (.memoryOutOfBounds .fetch addr) s.pc none

/-! ## The parts of a cycle: 40_cycle R100 -/

/-- (1) Fetch: the word at `PC`, high byte first, or the lowest of `PC`, `PC + 1` that exceeds 0xFFF.
40_cycle R101, 20_memory R51. -/
def State.fetch (s : State) : Except Nat Word :=
  match outOfBounds s.pc.toNat 2 with
  | some a => .error a
  | none => .ok (wordOfBytes (s.mem.read s.pc.toNat) (s.mem.read (s.pc.toNat + 1)))

/-- (1), (2) `IR <- w; PC <- trunc_16(PC + 2)`. 40_cycle R100, R102. -/
def State.advance (s : State) (w : Word) : State := { s with ir := w, pc := s.pc + 2 }

/-- A timer's tick: down by one, never below 0. 40_cycle R108. -/
def tickByte (b : Byte) : Byte := if 0 < b.toNat then b - 1 else b

/-- (4) Both timers tick. 40_cycle R108. -/
def State.tick (s : State) : State := { s with dt := tickByte s.dt, st := tickByte s.st }

/-- The end of a cycle whose execute step turned `before` (the state before the cycle) into `after`: a cycle that
raised is discarded but for `FAULT` (40_cycle R109, 60_exceptions R224), any other ticks the timers (R108). -/
def State.endCycle (before after : State) : State :=
  match after.fault with
  | some r => { before with fault := some r }
  | none => after.tick.takeInput

end Sys2Proof.Machine
end

