-- ==== Sys2Proof/Machine/Flags.lean ====
section
/-! DEFINITION. The flag computations of spec/10_state.md R22 and spec/42_alu.md R140, and the write order of a
flag and a result (spec/40_cycle.md R104). -/

namespace Sys2Proof.Machine

/-- A flag as the byte VF receives, 0x00 or 0x01. 10_state R22. -/
def flagByte (c : Bool) : Byte := if c then 1 else 0

/-- Carry out of the exact 9-bit sum. 42_alu R148. -/
def carryFlag (a b : Byte) : Bool := decide (255 < a.toNat + b.toNat)

/-- The strict unsigned comparison of SUB and SUBN. 42_alu R149, R151. -/
def greaterFlag (a b : Byte) : Bool := decide (b.toNat < a.toNat)

/-- The bit a right shift puts out. 42_alu R150. -/
def lowBitFlag (a : Byte) : Bool := a.getLsbD 0

/-- The bit a left shift puts out. 42_alu R152. -/
def highBitFlag (a : Byte) : Bool := a.getLsbD 7

/-- `V[15] <- flag; V[x] <- result`, in this order: with `x = 0xF` the result is what remains. 40_cycle R104
(the spec's decision D4, log 7). -/
def State.setFlagThenReg (s : State) (flag : Bool) (x : Reg) (result : Byte) : State :=
  (s.setReg VF (flagByte flag)).setReg x result

end Sys2Proof.Machine
end

