-- ==== Sys2Proof/Machine/Operands.lean ====
section
/-! DEFINITION. The operand forms of spec/30_encoding.md R73 and spec/43_index_memory.md R170 beyond a plain
register or byte: the address immediate, the index register plus an offset, the font glyph, decimal digits. -/

namespace Sys2Proof.Machine

/-- `zext_16(nnn)`: an address immediate moved into `PC` or `I`. 30_encoding R73. -/
def addrImm (nnn : Addr12) : Word := nnn.zeroExtend 16

/-- `zext_16` of a byte, as an addend of `PC` or `I`. 41_flow R128, 43_index_memory R172. -/
def byteAddend (b : Byte) : Word := b.zeroExtend 16

/-- The base address of a memory instruction: `I` as a natural number, so that `I + k` is an exact sum.
20_memory R64, 43_index_memory R170. -/
def State.base (s : State) : Nat := s.index.toNat

/-- The address of the glyph of a digit, on the whole byte and in 16 bits. 43_index_memory R173. -/
def glyphAddr (b : Byte) : Word := BitVec.ofNat 16 (Config.fontBase + Config.glyphBytes * b.toNat)

/-- Hundreds, tens and ones of a byte. 43_index_memory R174. -/
def decimalDigits (b : Byte) : List Byte :=
  [BitVec.ofNat 8 (b.toNat / 100), BitVec.ofNat 8 (b.toNat / 10 % 10), BitVec.ofNat 8 (b.toNat % 10)]

/-- `V[0]` to `V[x]`, the bytes `LD [I],Vx` stores. 43_index_memory R175. -/
def State.regsUpTo (s : State) (x : Reg) : List Byte := s.v.toList.take (x.val + 1)

/-- The sixteen key numbers, rising. 45_keypad_timers R203. -/
def allKeys : List (Fin 16) := [0, 1, 2, 3, 4, 5, 6, 7, 8, 9, 10, 11, 12, 13, 14, 15]

/-- The least pressed key, if any. 45_keypad_timers R203. -/
def leastKey (keys : Keys) : Option (Fin 16) := allKeys.find? (fun k => keys[k.val])

/-- Is the key with this number pressed? `none` when the number is above 15. 45_keypad_timers R201. -/
def keyPressed (keys : Keys) (k : Byte) : Option Bool := keys[k.toNat]?

end Sys2Proof.Machine
end

