-- ==== Sys2Proof/Machine/Display.lean ====
section
/-! DEFINITION. The framebuffer and the display instructions: spec/44_display.md R190 to R192. -/

namespace Sys2Proof.Machine

/-- `FB[y][x]`. 10_state R31. -/
def Framebuffer.cell (f : Framebuffer) (y : Fin 32) (x : Fin 64) : Bool := f[y.val][x.val]

/-- `FB[y][x] <- b`. 10_state R31. -/
def Framebuffer.setCell (f : Framebuffer) (y : Fin 32) (x : Fin 64) (b : Bool) : Framebuffer :=
  f.set y.val (f[y.val].set x.val b)

/-- Every cell off. 44_display R191. -/
def Framebuffer.clear : Framebuffer := Vector.replicate 32 (Vector.replicate 64 false)

/-- A column or row number reduced to the screen. 44_display R192: wrap, not clip. -/
def wrapCol (c : Nat) : Fin 64 := Fin.ofNat 64 c

/-- As `wrapCol`, for rows. -/
def wrapRow (r : Nat) : Fin 32 := Fin.ofNat 32 r

/-- A drawing under way: the framebuffer and whether a collision has been seen. -/
structure Drawing where
  fb : Framebuffer
  hit : Bool
  deriving DecidableEq, Repr

/-- One sprite pixel at screen column `cx`, row `cy`: a 1 toggles its cell and records a collision with a cell that
is on; a 0 does nothing. 44_display R190, R192. -/
def Drawing.pixel (d : Drawing) (cy : Fin 32) (cx : Fin 64) (bit : Bool) : Drawing :=
  if bit then ⟨d.fb.setCell cy cx (!d.fb.cell cy cx), d.hit || d.fb.cell cy cx⟩ else d

/-- One sprite row from column `px`: columns 0 to 7, bit `7 - col` of the byte (bit 7 leftmost: PRESUMED by the
spec, G2, log 6). 44_display R192. -/
def Drawing.row (d : Drawing) (cy : Fin 32) (px : Nat) (b : Byte) : Drawing :=
  [0, 1, 2, 3, 4, 5, 6, 7].foldl (fun d col => d.pixel cy (wrapCol (px + col)) (b.getLsbD (7 - col))) d

/-- The rows of a sprite, downward from row `py`. 44_display R192. -/
def Drawing.rows : Drawing → Nat → Nat → List Byte → Drawing
  | d, _, _, [] => d
  | d, py, px, b :: bs => Drawing.rows (d.row (wrapRow py) px b) (py + 1) px bs

/-- `CLS`. 44_display R191. -/
def execCls (s : State) : Host.Outcome State Fault Refusal := .next (s.setFb Framebuffer.clear)

/-- `DRW Vx,Vy,N`. 44_display R192: the coordinates are the old `V[x]`, `V[y]`; VF ends as the collision flag. -/
def execDrw (x y : Reg) (n : Fin 16) (s : State) : Host.Outcome State Fault Refusal :=
  match outOfBounds s.base n.val with
  | some a => .next (s.raise (.memoryOutOfBounds .read a))
  | none =>
    let d := Drawing.rows ⟨s.fb, false⟩ (s.reg y).toNat (s.reg x).toNat (s.mem.readList s.base n.val)
    .next ((s.setFb d.fb).setReg VF (flagByte d.hit))

end Sys2Proof.Machine
end

