-- ==== Sys2Proof/Machine/Flow.lean ====
section
/-! DEFINITION. Control flow: spec/41_flow.md R120 to R128. On entry `PC` is the instruction's address plus 2. -/

namespace Sys2Proof.Machine

/-- `RET`. 41_flow R121, 60_exceptions R222. Above 16 entries there is no stack entry to pop (log 4). -/
def execRet (s : State) : Host.Outcome State Fault Refusal :=
  if s.sp = 0 then .next (s.raise .stackUnderflow)
  else
    match s.stack[s.sp.toNat - 1]? with
    | some a => .next (s.popTo a)
    | none => .fault (.illegalStackPointer s.sp)

/-- `JP NNN`. 41_flow R122. -/
def execJp (nnn : Addr12) (s : State) : Host.Outcome State Fault Refusal := .next (s.setPc (addrImm nnn))

/-- `CALL NNN`. 41_flow R123, 60_exceptions R221. Above 16 entries there is no free slot to write (log 4). -/
def execCall (nnn : Addr12) (s : State) : Host.Outcome State Fault Refusal :=
  if s.sp.toNat = Config.stackDepth then .next (s.raise .stackOverflow)
  else if s.sp.toNat < Config.stackDepth then .next ((s.push s.pc).setPc (addrImm nnn))
  else .fault (.illegalStackPointer s.sp)

/-- `SE Vx,NN`. 41_flow R124. -/
def execSeImm (x : Reg) (nn : Byte) (s : State) : Host.Outcome State Fault Refusal :=
  .next (s.skipIf (s.reg x == nn))

/-- `SNE Vx,NN`. 41_flow R125. -/
def execSneImm (x : Reg) (nn : Byte) (s : State) : Host.Outcome State Fault Refusal :=
  .next (s.skipIf (s.reg x != nn))

/-- `SE Vx,Vy`. 41_flow R126. -/
def execSeReg (x y : Reg) (s : State) : Host.Outcome State Fault Refusal :=
  .next (s.skipIf (s.reg x == s.reg y))

/-- `SNE Vx,Vy`. 41_flow R127. -/
def execSneReg (x y : Reg) (s : State) : Host.Outcome State Fault Refusal :=
  .next (s.skipIf (s.reg x != s.reg y))

/-- `JP V0,NNN`. 41_flow R128: the 16-bit sum, not masked. -/
def execJpV0 (nnn : Addr12) (s : State) : Host.Outcome State Fault Refusal :=
  .next (s.setPc (addrImm nnn + byteAddend (s.reg 0)))

end Sys2Proof.Machine
end

