-- ==== Sys2Proof/Machine/IndexMemory.lean ====
section
/-! DEFINITION. Index register and memory instructions: spec/43_index_memory.md R170 to R176. The bound check over
the whole access set comes before any write (spec/20_memory.md R55, R56). -/

namespace Sys2Proof.Machine

/-- `LD I,NNN`. 43_index_memory R171 (from general knowledge, G1: PRESUMED, log 5). -/
def execLdI (nnn : Addr12) (s : State) : Host.Outcome State Fault Refusal := .next (s.setIndex (addrImm nnn))

/-- `ADD I,Vx`. 43_index_memory R172: 16 bits, wraps, no flag. -/
def execAddI (x : Reg) (s : State) : Host.Outcome State Fault Refusal :=
  .next (s.setIndex (s.index + byteAddend (s.reg x)))

/-- `LD F,Vx`. 43_index_memory R173. -/
def execLdF (x : Reg) (s : State) : Host.Outcome State Fault Refusal := .next (s.setIndex (glyphAddr (s.reg x)))

/-- `LD B,Vx`. 43_index_memory R174. -/
def execLdB (x : Reg) (s : State) : Host.Outcome State Fault Refusal :=
  match outOfBounds s.base 3 with
  | some a => .next (s.raise (.memoryOutOfBounds .write a))
  | none => .next (s.store s.base (decimalDigits (s.reg x)))

/-- `LD [I],Vx`. 43_index_memory R175: `x + 1` bytes, `I` kept. -/
def execStoreRegs (x : Reg) (s : State) : Host.Outcome State Fault Refusal :=
  match outOfBounds s.base (x.val + 1) with
  | some a => .next (s.raise (.memoryOutOfBounds .write a))
  | none => .next (s.store s.base (s.regsUpTo x))

/-- `LD Vx,[I]`. 43_index_memory R176: `x + 1` bytes, `I` kept. -/
def execLoadRegs (x : Reg) (s : State) : Host.Outcome State Fault Refusal :=
  match outOfBounds s.base (x.val + 1) with
  | some a => .next (s.raise (.memoryOutOfBounds .read a))
  | none => .next (s.loadRegs (s.mem.readList s.base (x.val + 1)))

end Sys2Proof.Machine
end

