-- ==== Sys2Proof/Machine/KeypadTimers.lean ====
section
/-! DEFINITION. Keypad and timer instructions: spec/45_keypad_timers.md R200 to R206. -/

namespace Sys2Proof.Machine

/-- `SKP Vx`. 45_keypad_timers R201, 60_exceptions R226. -/
def execSkp (x : Reg) (s : State) : Host.Outcome State Fault Refusal :=
  match keyPressed s.keys (s.reg x) with
  | none => .next (s.raise (.keyIndexOutOfRange (s.reg x)))
  | some pressed => .next (s.skipIf pressed)

/-- `SKNP Vx`. 45_keypad_timers R202, 60_exceptions R226. -/
def execSknp (x : Reg) (s : State) : Host.Outcome State Fault Refusal :=
  match keyPressed s.keys (s.reg x) with
  | none => .next (s.raise (.keyIndexOutOfRange (s.reg x)))
  | some pressed => .next (s.skipIf (!pressed))

/-- What `LD Vx,K` makes of a scan: the key's number into `V[x]`, or `PC` back to this instruction. R203. -/
def State.keyWait (s : State) (x : Reg) (found : Option (Fin 16)) : State :=
  { s with
    v := found.elim s.v (fun k => s.v.set x.val (BitVec.ofNat 8 k.val))
    pc := found.elim (s.pc - 2) (fun _ => s.pc) }

/-- `LD Vx,K`. 45_keypad_timers R203. -/
def execLdVxK (x : Reg) (s : State) : Host.Outcome State Fault Refusal :=
  .next (s.keyWait x (leastKey s.keys))

/-- `LD Vx,DT`. 45_keypad_timers R204. -/
def execLdVxDt (x : Reg) (s : State) : Host.Outcome State Fault Refusal := .next (s.setReg x s.dt)

/-- `LD DT,Vx`. 45_keypad_timers R205. -/
def execLdDtVx (x : Reg) (s : State) : Host.Outcome State Fault Refusal := .next (s.setDt (s.reg x))

/-- `LD ST,Vx`. 45_keypad_timers R206. -/
def execLdStVx (x : Reg) (s : State) : Host.Outcome State Fault Refusal := .next (s.setSt (s.reg x))

end Sys2Proof.Machine
end

