-- ==== Sys2Proof/Machine/NoOps.lean ====
section
/-! DEFINITION. `SYS NNN` and the unrecognised words: spec/40_cycle.md R105, R106. -/

namespace Sys2Proof.Machine

/-- `SYS NNN`, a no-op. 40_cycle R105. -/
def execSys (_nnn : Addr12) (s : State) : Host.Outcome State Fault Refusal := .next s

/-- The execute step of an unrecognised word, a no-op. 40_cycle R106. -/
def execUnrecognised (s : State) : Host.Outcome State Fault Refusal := .next s

end Sys2Proof.Machine
end

