-- ==== Sys2Proof/Machine/Cycle.lean ====
section
/-! DEFINITION. The machine cycle: spec/40_cycle.md R100. -/

namespace Sys2Proof.Machine

/-- The execute step of a fetched word: its instruction's rule, or the no-op of an unrecognised word.
40_cycle R103, R106. -/
def execWord (w : Word) (s : State) : Host.Outcome State Fault Refusal :=
  match decodeWord w with
  | .ok i => exec i s
  | .error _ => execUnrecognised s

/-- Close a cycle that began in `before` with what its execute step gave. -/
def closeCycle (before : State) : Host.Outcome State Fault Refusal → Host.Outcome State Fault Refusal
  | .next after => .next (before.endCycle after)
  | .fault f => .fault f
  | .refused r => .refused r

/-- A cycle of a running core: fetch, advance, decode and execute, timers. 40_cycle R100. -/
def runCycle (s : State) : Host.Outcome State Fault Refusal :=
  match s.fetch with
  | .error addr => .next (s.raiseFetch addr)
  | .ok w => closeCycle s (execWord w (s.advance w))

/-- The cycle: a halted core does nothing (40_cycle R107), a running one runs `runCycle`. -/
def cycle (s : State) : Host.Outcome State Fault Refusal :=
  match s.fault with
  | some _ => .next s
  | none => runCycle s

/-- A word stored where the next fetch reads it, high byte first (20_memory R51); where `PC` is above 0xFFE no fetch
succeeds (40_cycle R101) and nothing is stored. -/
def State.placeWord (s : State) (w : Word) : State :=
  if s.pc.toNat < Config.memTop then s.store s.pc.toNat (bytesOfWord w) else s

end Sys2Proof.Machine
end

