-- ==== Sys2Proof/Machine/Step.lean ====
section
/-! DEFINITION. The step of the machine, one machine cycle (spec/10_state.md R38, spec/40_cycle.md R100), and the
host's placing of one instruction where the step fetches it. -/

namespace Sys2Proof.Machine

/-- One `step` is one machine cycle. 10_state R38. -/
def step (s : State) : Host.Outcome State Fault Refusal := cycle s

/-- `s` with the instruction whose first `nbits` bits are `w` (the others 0) stored at `PC`. -/
def State.withFetchWord (s : State) (nbits w : Nat) : State := s.placeWord (BitVec.ofNat 16 (w % 2 ^ nbits))

end Sys2Proof.Machine
end

