-- ==== Sys2Proof/Machine/Ports.lean ====
section
/-! DEFINITION. The host's ports: reset with any font, `rom_load`, `fb_out`, `sound_out`, `fault_out`.
spec/10_state.md R36 to R44, spec/70_reset_and_hazards.md R250, R255. -/

namespace Sys2Proof.Machine

/-- Reset with a font table other than the default: `FONT` is an open parameter (00_scope R9, 10_state R36), and
reset copies it into memory at 0x050 (70_reset_and_hazards R250). -/
def State.resetWith (font : Vector Byte 80) : State := State.reset.store Config.fontBase font.toList

/-- `rom_load(bytes)`. 70_reset_and_hazards R255: an oversized ROM is rejected whole and halts the core with
`RomTooLarge`; any other is copied to 0x200. That the host does this once, between reset and the first step, is its
own duty and is not checked (R256). -/
def State.romLoad (s : State) (bytes : List Byte) : State :=
  if Config.romMax < bytes.length then s.takeFault (.romTooLarge bytes.length) s.pc none
  else s.store Config.romBase bytes

/-- `fb_out`: all 2048 cells, row-major. 10_state R41. -/
def State.fbOut (s : State) : List Bool := s.fb.toList.flatMap (fun row => row.toList)

/-- `sound_out`. 10_state R42. -/
def State.soundOut (s : State) : Bool := decide (0 < s.st.toNat)

/-- `fault_out`. 10_state R43. -/
def State.faultOut (s : State) : Option FaultRecord := s.fault

/-- The host lines up the input of the next cycle. 10_state R39, R40. -/
def State.supply (s : State) (keys : Keys) (rnd : Byte) : State := { s with inputs := [⟨keys, rnd⟩] }

end Sys2Proof.Machine
end

