-- ==== Sys2Proof/Safety.lean ====
section
/-! DEFINITION. What counts as a legal state and a safe cycle, and the words in which statements say what an
instruction leaves unchanged. -/

namespace Sys2Proof.Machine

/-- The invariant of the machine: every state a run from reset passes through meets it. -/
structure State.Inv (s : State) : Prop where
  /-- SP never leaves 0 to 16: 10_state R26 -/
  sp_legal : s.sp.toNat ≤ 16
  /-- the largest PC is that of `JP V0,NNN`: 10_state R23, 41_flow R128 -/
  pc_bound : s.pc.toNat ≤ 0x10FE
  /-- a live stack entry is a PC that followed a successful fetch: 41_flow R121 -/
  stack_live : ∀ k : Fin 16, k.val < s.sp.toNat →
    2 ≤ s.stack[k.val].toNat ∧ s.stack[k.val].toNat ≤ 0x1000
  /-- memory is in canonical form -/
  mem_wf : s.mem.wf = true
  /-- memory lists addresses 0x000 to 0xFFF only: 20_memory R50 -/
  mem_range : s.mem.inRange = true
  /-- the fault record's pc is the PC the core halted with: 60_exceptions R224 -/
  fault_pc : ∀ r, s.fault = some r → r.pc = s.pc

/-- The core runs: 10_state R29. -/
abbrev State.running (s : State) : Prop := s.fault = none

/-- The core is halted: 40_cycle R107. -/
abbrev State.halted (s : State) : Prop := s.fault ≠ none

/-- A safe cycle: it completes without raising a fault. -/
def State.safeCycle (s : State) : Prop := ∃ t, step s = .next t ∧ t.running

/-- The parts of the state beside the general registers, for frames. -/
inductive StatePart where
  | pc
  | index
  | stack
  | delay
  | sound
  | instrReg
  | memory
  | screen
  | faultReg
  | hostInputs
  deriving DecidableEq, Repr

/-- A part of the state is the same in two states; memory is compared byte by byte. -/
def SamePart (s t : State) : StatePart → Prop
  | .pc => t.pc = s.pc
  | .index => t.index = s.index
  | .stack => t.sp = s.sp ∧ t.stack = s.stack
  | .delay => t.dt = s.dt
  | .sound => t.st = s.st
  | .instrReg => t.ir = s.ir
  | .memory => ∀ a, t.mem.read a = s.mem.read a
  | .screen => t.fb = s.fb
  | .faultReg => t.fault = s.fault
  | .hostInputs => t.inputs = s.inputs ∧ t.inputIndex = s.inputIndex

/-- From `s` to `t` only the registers that meet `regs` and the parts listed may change. -/
def OnlyChanges (regs : Reg → Prop) (parts : List StatePart) (s t : State) : Prop :=
  (∀ r, ¬ regs r → t.reg r = s.reg r) ∧ ∀ p, p ∉ parts → SamePart s t p

/-- No register. -/
def noReg (_ : Reg) : Prop := False

/-- The core runs with the word `w` at `PC`, the high byte at the lower address. 20_memory R51, 40_cycle R101. -/
structure State.At (s : State) (w : Word) : Prop where
  running : s.running
  pc_le : s.pc.toNat ≤ 0xFFE
  high : s.mem.read s.pc.toNat = w.extractLsb' 8 8
  low : s.mem.read (s.pc.toNat + 1) = w.extractLsb' 0 8

end Sys2Proof.Machine

namespace Sys2Proof

/-- The registers an instruction may write: its destination, and VF where it is a flag output. 10_state R21, R22. -/
def Instr.writesReg : Instr → Reg → Prop
  | .ldImm x _ | .addImm x _ | .ldReg x _ | .orReg x _ | .andReg x _ | .xorReg x _ | .rnd x _ | .ldVxDt x
  | .ldVxK x => fun r => r = x
  | .addReg x _ | .subReg x _ | .shr x _ | .subnReg x _ | .shl x _ => fun r => r = x ∨ r = Machine.VF
  | .drw _ _ _ => fun r => r = Machine.VF
  | .loadRegs x => fun r => r ≤ x
  | .cls | .ret | .sys _ | .jp _ | .call _ | .seImm _ _ | .sneImm _ _ | .seReg _ _ | .sneReg _ _ | .ldI _
  | .jpV0 _ | .skp _ | .sknp _ | .ldDtVx _ | .ldStVx _ | .addI _ | .ldF _ | .ldB _
  | .storeRegs _ => Machine.noReg

/-- The other parts of the state an instruction may change in its execute step; `faultReg` stands where the
instruction can raise. 10_state R24 to R27, R30, R31, 60_exceptions R223. -/
def Instr.partsWritten : Instr → List Machine.StatePart
  | .cls => [.screen]
  | .ret | .call _ => [.pc, .stack, .faultReg]
  | .jp _ | .seImm _ _ | .sneImm _ _ | .seReg _ _ | .sneReg _ _ | .jpV0 _ | .ldVxK _ => [.pc]
  | .skp _ | .sknp _ => [.pc, .faultReg]
  | .ldI _ | .addI _ | .ldF _ => [.index]
  | .drw _ _ _ => [.screen, .faultReg]
  | .ldDtVx _ => [.delay]
  | .ldStVx _ => [.sound]
  | .ldB _ | .storeRegs _ => [.memory, .faultReg]
  | .loadRegs _ => [.faultReg]
  | .sys _ | .ldImm _ _ | .addImm _ _ | .ldReg _ _ | .orReg _ _ | .andReg _ _ | .xorReg _ _ | .addReg _ _
  | .subReg _ _ | .shr _ _ | .subnReg _ _ | .shl _ _ | .rnd _ _ | .ldVxDt _ => []

end Sys2Proof
end

