-- ==== Sys2Proof/Certificates/Slice0/Obligations.lean ====
section
/-! DEFINITION. The statements about the machine, each from the rules of spec/ its docstring names. -/

open Sys2Proof Sys2Proof.Machine

/-! ## Encoding -/

/-- 30_encoding R71 to R73, R80: the word of every well-formed instruction, with every operand at every value, decodes
to it, and its two bytes decode to it with the rest of the stream left over. -/
def Obligations.EncodeThenDecode : Prop :=
  ∀ (i : Instr) (rest : List Byte), i.wellFormed = true →
    decodeWord (encode i) = .ok i ∧ decodeBytes (bytesOfWord (encode i) ++ rest) = .ok (i, rest)

/-- 30_encoding R74: each word has one meaning; what the decoder gives is well formed and encodes back to the word. -/
def Obligations.DecodeThenEncode : Prop :=
  ∀ (w : Word) (i : Instr), decodeWord w = .ok i → i.wellFormed = true ∧ encode i = w

/-- 30_encoding R80: the decoder gives the instruction of the FIRST row of the opcode map a word matches (mask and
match, in the rows' order), and rejects exactly the words that match none. Rows 3 (`SYS`) and 21 (`LD I`) are the
spec's from general knowledge (D11, D12; logs 5, 13). -/
def Obligations.DecoderFollowsOpcodeMap : Prop :=
  ∀ w : Word,
    match decodeWord w with
    | .ok i => (firstRow w).map (fun r => r.number) = some i.rowNumber
    | .error e => e = .unrecognised w ∧ firstRow w = none

/-- 30_encoding R81: the unrecognised words are exactly these, in the digits of the word. -/
def Obligations.UnrecognisedWordsAre : Prop :=
  ∀ w : Word, decodeWord w = .error (.unrecognised w) ↔
    (w.toNat / 4096 = 0x5 ∧ w.toNat % 16 ≠ 0) ∨
    (w.toNat / 4096 = 0x8 ∧ w.toNat % 16 ∈ [0x8, 0x9, 0xA, 0xB, 0xC, 0xD, 0xF]) ∨
    (w.toNat / 4096 = 0x9 ∧ w.toNat % 16 ≠ 0) ∨
    (w.toNat / 4096 = 0xE ∧ w.toNat % 256 ∉ [0x9E, 0xA1]) ∨
    (w.toNat / 4096 = 0xF ∧
      w.toNat % 256 ∉ [0x07, 0x0A, 0x15, 0x18, 0x1E, 0x29, 0x33, 0x55, 0x65])

/-- Sanity, one word of each format and the near misses of 30_encoding R75. -/
def Obligations.SampleWordsDecode : Prop :=
  decodeWord 0x00E0 = .ok .cls ∧ decodeWord 0x00EE = .ok .ret ∧ decodeWord 0x01E0 = .ok (.sys 0x1E0) ∧
  decodeWord 0x2ABC = .ok (.call 0xABC) ∧ decodeWord 0x6A2B = .ok (.ldImm 10 0x2B) ∧
  decodeWord 0x8125 = .ok (.subReg 1 2) ∧ decodeWord 0xD7F3 = .ok (.drw 7 15 3) ∧
  decodeWord 0xE29E = .ok (.skp 2) ∧ decodeWord 0xF355 = .ok (.storeRegs 3) ∧
  decodeWord 0x5121 = .error (.unrecognised 0x5121) ∧ decodeWord 0xE19F = .error (.unrecognised 0xE19F) ∧
  decodeWord 0xF108 = .error (.unrecognised 0xF108)

/-! ## The cycle -/

/-- 40_cycle R100, R103: with the word `w` at `PC`, a step is `exec` of the decoded instruction on the state whose
`IR` is loaded and whose `PC` is advanced, closed by `State.endCycle`; for an unrecognised word the execute step is
empty. What `advance` and `endCycle` do is stated by the next two. -/
def Obligations.StepRunsDecodedInstruction : Prop :=
  ∀ (s : State) (w : Word), s.At w →
    (∀ i, decodeWord w = .ok i →
      step s = match exec i (s.advance w) with
        | .next t => .next (s.endCycle t)
        | .fault f => .fault f
        | .refused r => .refused r) ∧
    (∀ e, decodeWord w = .error e → step s = .next (s.endCycle (s.advance w)))

/-- 40_cycle R102: the advance adds 2 to `PC` modulo 2^16; after a successful fetch there is no wrap and `PC` is at
most 0x1000. `IR` holds the fetched word; nothing else changes. -/
def Obligations.AdvanceLoadsIrAndMovesPc : Prop :=
  ∀ (s : State) (w : Word),
    (s.advance w).ir = w ∧ (s.advance w).pc.toNat = (s.pc.toNat + 2) % 65536 ∧
    (s.pc.toNat ≤ 0xFFE → (s.advance w).pc.toNat = s.pc.toNat + 2 ∧ (s.advance w).pc.toNat ≤ 0x1000) ∧
    OnlyChanges noReg [.pc, .instrReg] s (s.advance w)

/-- 40_cycle R108, R109 (the spec's decision D7; log 10): a cycle that raised nothing ticks both timers, each down
by one and never below 0, and goes on to the next input (the model's own fields, log 2); a cycle that raised is
discarded but for `FAULT`. -/
def Obligations.CycleEndCommitsOrDiscards : Prop :=
  ∀ before after : State,
    (after.running →
      (before.endCycle after).dt.toNat = after.dt.toNat - 1 ∧
      (before.endCycle after).st.toNat = after.st.toNat - 1 ∧
      (before.endCycle after).inputs = after.inputs.tail ∧
      (before.endCycle after).inputIndex = after.inputIndex + 1 ∧
      OnlyChanges noReg [.delay, .sound, .hostInputs] after (before.endCycle after)) ∧
    (∀ r, after.fault = some r → before.endCycle after = { before with fault := some r })

/-- 20_memory R51: the fetched word is the byte at `PC` in the high bits and the byte at `PC + 1` in the low bits;
after a completed cycle `IR` holds it. It holds at every `PC` from which both bytes are in memory; that odd ones are
fetched from like even ones is 20_memory R54, the spec's decision D20 (log 17). -/
def Obligations.FetchIsBigEndian : Prop :=
  ∀ s : State, s.pc.toNat ≤ 0xFFE →
    ∃ w, s.fetch = .ok w ∧
      w.toNat = 256 * (s.mem.read s.pc.toNat).toNat + (s.mem.read (s.pc.toNat + 1)).toNat ∧
      (s.running → ∀ t, step s = .next t → t.running → t.ir = w)

/-- 40_cycle R101, 60_exceptions R225 (the spec's decision D5; log 8): with `PC` above 0xFFE the cycle raises
`MemoryOutOfBounds` with access `fetch`, no word, and the address 0x1000 for `PC = 0xFFF`, else `PC`; nothing else
changes. -/
def Obligations.FetchAboveMemoryFaults : Prop :=
  ∀ s : State, s.running → 0xFFE < s.pc.toNat →
    ∃ t, step s = .next t ∧
      t.fault = some ⟨.memoryOutOfBounds .fetch (if s.pc.toNat = 0xFFF then 0x1000 else s.pc.toNat), s.pc, none⟩ ∧
      OnlyChanges noReg [.faultReg] s t

/-- 40_cycle R107 (the spec's decision D7; log 10): a halted core's step changes no state at all. -/
def Obligations.HaltedCoreDoesNothing : Prop :=
  ∀ s : State, s.halted → step s = .next s

/-- 40_cycle R109, 60_exceptions R224 (the spec's decision D7; log 10): a cycle that raises changes `FAULT` only; the
record's `pc` is the address of the faulting instruction, and its `word` is the fetched word, absent exactly for a
fetch fault. -/
def Obligations.FaultingCycleChangesOnlyFault : Prop :=
  ∀ s t : State, s.running → step s = .next t → t.halted →
    ∃ r, t = { s with fault := some r } ∧ r.pc = s.pc ∧
      (r.word = none ↔ 0xFFE < s.pc.toNat) ∧ (∀ w, s.At w → r.word = some w)

/-- 60_exceptions R223, R225, R226, R230 (the spec's decisions D5, D6, D15; logs 8, 9, 14): which cycles raise, and
with which record. -/
def Obligations.FaultsAriseExactlyWhen : Prop :=
  ∀ (s t : State) (r : FaultRecord), s.running → step s = .next t →
    (t.fault = some r ↔
      (0xFFE < s.pc.toNat ∧ r = ⟨.memoryOutOfBounds .fetch (max s.pc.toNat 0x1000), s.pc, none⟩) ∨
      ∃ w i, s.At w ∧ decodeWord w = .ok i ∧ r.pc = s.pc ∧ r.word = some w ∧
        ((∃ nnn, i = .call nnn ∧ s.sp = 16 ∧ r.info = .stackOverflow) ∨
         (i = .ret ∧ s.sp = 0 ∧ r.info = .stackUnderflow) ∨
         (∃ x y n, i = .drw x y n ∧ 0 < n.val ∧ 0xFFF < s.index.toNat + n.val - 1 ∧
            r.info = .memoryOutOfBounds .read (max s.index.toNat 0x1000)) ∨
         (∃ x, i = .ldB x ∧ 0xFFF < s.index.toNat + 2 ∧
            r.info = .memoryOutOfBounds .write (max s.index.toNat 0x1000)) ∨
         (∃ x, i = .storeRegs x ∧ 0xFFF < s.index.toNat + x.val ∧
            r.info = .memoryOutOfBounds .write (max s.index.toNat 0x1000)) ∨
         (∃ x, i = .loadRegs x ∧ 0xFFF < s.index.toNat + x.val ∧
            r.info = .memoryOutOfBounds .read (max s.index.toNat 0x1000)) ∨
         (∃ x, (i = .skp x ∨ i = .sknp x) ∧ 15 < (s.reg x).toNat ∧
            r.info = .keyIndexOutOfRange (s.reg x))))

/-- 40_cycle R108: each timer ticks once in every completed cycle whatever the word, acting on the value the
instruction left (so `LD DT,Vx` and `LD ST,Vx` end with `V[x]` less one, and `LD Vx,DT` reads `DT` before the tick),
and in no cycle that raises or is halted. -/
def Obligations.TimersTickOncePerCycle : Prop :=
  ∀ s t : State, step s = .next t →
    (s.halted → t.dt = s.dt ∧ t.st = s.st) ∧
    (s.running → t.halted → t.dt = s.dt ∧ t.st = s.st) ∧
    (∀ w, s.At w → t.running →
      (∀ x, decodeWord w = .ok (.ldVxDt x) → t.reg x = s.dt) ∧
      (∀ x, decodeWord w = .ok (.ldDtVx x) → t.dt.toNat = (s.reg x).toNat - 1) ∧
      ((∀ x, decodeWord w ≠ .ok (.ldDtVx x)) → t.dt.toNat = s.dt.toNat - 1) ∧
      (∀ x, decodeWord w = .ok (.ldStVx x) → t.st.toNat = (s.reg x).toNat - 1) ∧
      ((∀ x, decodeWord w ≠ .ok (.ldStVx x)) → t.st.toNat = s.st.toNat - 1))

/-- 40_cycle R106: an unrecognised word's cycle completes, advances `PC` by 2, ticks the timers, and does nothing
else (`IR` holds the word). -/
def Obligations.UnrecognisedWordIsNoOp : Prop :=
  ∀ (s : State) (w : Word), s.At w → firstRow w = none →
    ∃ t, step s = .next t ∧ t.running ∧ t.ir = w ∧ t.pc.toNat = s.pc.toNat + 2 ∧
      t.dt.toNat = s.dt.toNat - 1 ∧ t.st.toNat = s.st.toNat - 1 ∧
      OnlyChanges noReg [.pc, .instrReg, .delay, .sound, .hostInputs] s t

/-- 40_cycle R105 (the spec's decision D12; log 13): `SYS NNN` completes in every state and changes nothing; its
whole cycle is that of an unrecognised word. -/
def Obligations.SysIsNoOp : Prop :=
  (∀ (nnn : Addr12) (s : State), ∃ t, exec (.sys nnn) s = .next t ∧ OnlyChanges noReg [] s t) ∧
  (∀ (s : State) (w : Word) (nnn : Addr12), s.At w → decodeWord w = .ok (.sys nnn) →
    ∃ t, step s = .next t ∧ t.running ∧ t.ir = w ∧ t.pc.toNat = s.pc.toNat + 2 ∧
      t.dt.toNat = s.dt.toNat - 1 ∧ t.st.toNat = s.st.toNat - 1 ∧
      OnlyChanges noReg [.pc, .instrReg, .delay, .sound, .hostInputs] s t)

/-! ## The whole machine -/

/-- 40_cycle R110: the cycle is total. Every instruction answers a next state while `SP` is legal, and every step
from a state that meets the invariant does; the model stops nowhere else (log 4). -/
def Obligations.LegalStatesAlwaysStep : Prop :=
  (∀ (i : Instr) (s : State), s.sp.toNat ≤ 16 → ∃ t, exec i s = .next t) ∧
  (∀ s : State, s.Inv → ∃ t, step s = .next t)

/-- 10_state R23, R26, 41_flow R121, 93 U23: every step keeps the invariant: `SP` in 0 to 16, `PC` at most 0x10FE,
live stack entries in 0x0002 to 0x1000, memory canonical and in range, the fault record's `pc` the halted `PC`. -/
def Obligations.InvariantKeptByStep : Prop :=
  ∀ s t : State, s.Inv → step s = .next t → t.Inv

/-- The invariant holds after reset, with the default font and with any other. -/
def Obligations.ResetMeetsInvariant : Prop :=
  State.reset.Inv ∧ ∀ font : Vector Byte 80, (State.resetWith font).Inv

/-- 10_state R35, 70_reset R250, for every font table: what reset leaves. The values of `I`, `IR` and `FB` are the
spec's decision D17 (log 11), `FAULT` its decision D7; that `State.reset` takes the default font is PRESUMED (log 1). -/
def Obligations.ResetState : Prop :=
  State.resetWith Config.font = State.reset ∧
  ∀ font : Vector Byte 80,
    let s := State.resetWith font
    (∀ r, s.reg r = 0) ∧ s.pc = 0x0200 ∧ s.index = 0 ∧ (∀ k : Fin 16, s.stack[k.val] = 0) ∧ s.sp = 0 ∧
    s.dt = 0 ∧ s.st = 0 ∧ s.ir = 0 ∧
    (∀ k : Fin 80, s.mem.read (0x050 + k.val) = font[k.val]) ∧
    (∀ a, a < 0x050 ∨ 0x0A0 ≤ a → s.mem.read a = 0) ∧
    (∀ y x, s.fb.cell y x = false) ∧ s.fault = none

/-- 70_reset R255 (the spec's decision D18; log 16): a ROM of at most 3584 bytes is copied verbatim to 0x200 and
nothing else changes; a longer one is rejected whole and leaves the core halted with `RomTooLarge`. Either way the
invariant is kept. -/
def Obligations.RomLoadCopiesOrRejects : Prop :=
  ∀ (s : State) (bytes : List Byte),
    (bytes.length ≤ 3584 →
      (∀ a, (s.romLoad bytes).mem.read a =
        if 0x200 ≤ a ∧ a < 0x200 + bytes.length then bytes.getD (a - 0x200) 0 else s.mem.read a) ∧
      OnlyChanges noReg [.memory] s (s.romLoad bytes)) ∧
    (3584 < bytes.length →
      s.romLoad bytes = { s with fault := some ⟨.romTooLarge bytes.length, s.pc, none⟩ }) ∧
    (s.Inv → (s.romLoad bytes).Inv)

/-- 10_state R41: `fb_out` presents all 2048 cells, cell (x, y) at position 64*y + x. -/
def Obligations.FramebufferPortIsRowMajor : Prop :=
  ∀ s : State, s.fbOut.length = 2048 ∧
    ∀ (y : Fin 32) (x : Fin 64), s.fbOut[64 * y.val + x.val]? = some (s.fb.cell y x)

/-- 10_state R42, 45_keypad_timers R206: `sound_out` is on exactly while `ST` is above 0; after the cycle of
`LD ST,Vx` it is on exactly when `V[x]` was at least 2. -/
def Obligations.SoundPortAfterLoad : Prop :=
  (∀ s : State, s.soundOut = true ↔ 0 < s.st.toNat) ∧
  ∀ (s t : State) (x : Reg), s.At (formatXK 0xF x 0x18) → step s = .next t →
    (t.soundOut = true ↔ 2 ≤ (s.reg x).toNat)

/-- Which registers and parts each instruction may change in its execute step (10_state R21, R22, R24 to R27, R30,
R31; 44_display R190), and that raising changes `FAULT` only (60_exceptions R224, 40_cycle R109: the spec's decision
D7; log 10). Which bytes the two storing forms, `LD B,Vx` and `LD [I],Vx`, leave alone is stated by
`DecimalDigitsStored` and `RegistersStored`. -/
def Obligations.FrameOfEveryInstruction : Prop :=
  ∀ (i : Instr) (s t : State), exec i s = .next t →
    OnlyChanges i.writesReg i.partsWritten s t ∧ (t.fault ≠ s.fault → t = { s with fault := t.fault })

/-- 10_state R24: what writes `PC` beside the advance. -/
def Obligations.WhatWritesPc : Prop :=
  ∀ (i : Instr) (s t : State), exec i s = .next t →
    match i with
    | .seImm _ _ | .sneImm _ _ | .seReg _ _ | .sneReg _ _ | .skp _ | .sknp _ => t.pc = s.pc ∨ t.pc = s.pc + 2
    | .jp nnn => t.pc.toNat = nnn.toNat
    | .call nnn => (s.sp.toNat < 16 ∧ t.pc.toNat = nnn.toNat) ∨ (s.sp = 16 ∧ t.pc = s.pc)
    | .jpV0 nnn => t.pc.toNat = nnn.toNat + (s.reg 0).toNat
    | .ret => (0 < s.sp.toNat ∧ s.stack[s.sp.toNat - 1]? = some t.pc) ∨ (s.sp = 0 ∧ t.pc = s.pc)
    | .ldVxK _ => ((∃ k : Fin 16, s.keys[k.val] = true) ∧ t.pc = s.pc) ∨
        ((∀ k : Fin 16, s.keys[k.val] = false) ∧ t.pc = s.pc - 2)
    | _ => t.pc = s.pc

/-- 10_state R26, R33: `SP` moves only by plus 1 (`CALL`) or minus 1 (`RET`) and stays in 0 to 16. -/
def Obligations.StackPointerMovesByOne : Prop :=
  ∀ (i : Instr) (s t : State), s.sp.toNat ≤ 16 → exec i s = .next t →
    t.sp.toNat ≤ 16 ∧
    (t.sp = s.sp ∨ ((∃ nnn, i = .call nnn) ∧ t.sp.toNat = s.sp.toNat + 1) ∨
      (i = .ret ∧ t.sp.toNat + 1 = s.sp.toNat))

/-- 40_cycle R110, 10_state R40: no instruction but `RND` depends on the random byte. -/
def Obligations.RandomSeenOnlyByRnd : Prop :=
  ∀ (i : Instr) (s t : State) (keys : Keys) (r r' : Byte), (∀ x nn, i ≠ .rnd x nn) →
    exec i (s.supply keys r) = .next t → exec i (s.supply keys r') = .next (t.supply keys r')

/-- 40_cycle R110, 10_state R39: no instruction but `SKP`, `SKNP` and `LD Vx,K` depends on the keypad. -/
def Obligations.KeysSeenOnlyByKeyInstructions : Prop :=
  ∀ (i : Instr) (s t : State) (keys keys' : Keys) (r : Byte),
    (∀ x, i ≠ .skp x ∧ i ≠ .sknp x ∧ i ≠ .ldVxK x) →
    exec i (s.supply keys r) = .next t → exec i (s.supply keys' r) = .next (t.supply keys' r)

/-- 10_state R27: no instruction reads `ST`: with another value in it, every instruction does the same and leaves
that value, but for `LD ST,Vx`, which overwrites it. -/
def Obligations.SoundTimerNeverRead : Prop :=
  ∀ (i : Instr) (s t : State) (b : Byte), exec i s = .next t →
    ((∀ x, i ≠ .ldStVx x) → exec i (s.setSt b) = .next (t.setSt b)) ∧
    ((∃ x, i = .ldStVx x) → exec i (s.setSt b) = .next t)

/-- 10_state R28: no instruction reads `IR` as data; it shows only in a fault record. -/
def Obligations.InstructionRegisterNeverRead : Prop :=
  ∀ (i : Instr) (s t : State) (w : Word), s.running → exec i s = .next t → t.running →
    exec i { s with ir := w } = .next { t with ir := w }

/-- 40_cycle R111: at a `JP` to its own address a cycle changes nothing but the timers (and `IR`). -/
def Obligations.SelfLoopIsStable : Prop :=
  ∀ (s : State) (nnn : Addr12), s.At (formatA 0x1 nnn) → s.pc.toNat = nnn.toNat →
    ∃ t, step s = .next t ∧ t.running ∧ t.dt.toNat = s.dt.toNat - 1 ∧ t.st.toNat = s.st.toNat - 1 ∧
      OnlyChanges noReg [.instrReg, .delay, .sound, .hostInputs] s t

/-- 60_exceptions R223, the table of the five fault kinds, with each kind's code and name whatever its info; so the
kinds are distinct, by code and by name. The numbering is the spec's decision D22 (log 10). -/
def Obligations.FaultCodesDistinct : Prop :=
  (FaultInfo.stackOverflow.code = 1 ∧ FaultInfo.stackOverflow.name = "StackOverflow") ∧
  (FaultInfo.stackUnderflow.code = 2 ∧ FaultInfo.stackUnderflow.name = "StackUnderflow") ∧
  (∀ (access : Access) (addr : Nat),
    (FaultInfo.memoryOutOfBounds access addr).code = 3 ∧
    (FaultInfo.memoryOutOfBounds access addr).name = "MemoryOutOfBounds") ∧
  (∀ len : Nat, (FaultInfo.romTooLarge len).code = 4 ∧ (FaultInfo.romTooLarge len).name = "RomTooLarge") ∧
  (∀ key : Byte,
    (FaultInfo.keyIndexOutOfRange key).code = 5 ∧ (FaultInfo.keyIndexOutOfRange key).name = "KeyIndexOutOfRange") ∧
  ∀ a b : FaultInfo, a.code = b.code ↔ a.name = b.name

/-! ## Registers and ALU -/

/-- 42_alu R141, R143. -/
def Obligations.LoadImmediateAndCopy : Prop :=
  ∀ (x y : Reg) (nn : Byte) (s : State),
    (decodeWord (formatXK 0x6 x nn) = .ok (.ldImm x nn) ∧
      ∃ t, exec (.ldImm x nn) s = .next t ∧ t.reg x = nn ∧ OnlyChanges (fun r => r = x) [] s t) ∧
    (decodeWord (formatXYN 0x8 x y 0x0) = .ok (.ldReg x y) ∧
      ∃ t, exec (.ldReg x y) s = .next t ∧ t.reg x = s.reg y ∧ OnlyChanges (fun r => r = x) [] s t)

/-- 42_alu R142: the sum wraps and no flag is written. -/
def Obligations.AddImmediateWraps : Prop :=
  ∀ (x : Reg) (nn : Byte) (s : State),
    decodeWord (formatXK 0x7 x nn) = .ok (.addImm x nn) ∧
    ∃ t, exec (.addImm x nn) s = .next t ∧ (t.reg x).toNat = ((s.reg x).toNat + nn.toNat) % 256 ∧
      OnlyChanges (fun r => r = x) [] s t

/-- 42_alu R144, R145, R146: each bit on its own; VF is left unchanged unless it is the destination. -/
def Obligations.BitwiseOperations : Prop :=
  ∀ (x y : Reg) (s : State),
    (decodeWord (formatXYN 0x8 x y 0x1) = .ok (.orReg x y) ∧
      ∃ t, exec (.orReg x y) s = .next t ∧
        (∀ k, (t.reg x).getLsbD k = ((s.reg x).getLsbD k || (s.reg y).getLsbD k)) ∧
        OnlyChanges (fun r => r = x) [] s t) ∧
    (decodeWord (formatXYN 0x8 x y 0x2) = .ok (.andReg x y) ∧
      ∃ t, exec (.andReg x y) s = .next t ∧
        (∀ k, (t.reg x).getLsbD k = ((s.reg x).getLsbD k && (s.reg y).getLsbD k)) ∧
        OnlyChanges (fun r => r = x) [] s t) ∧
    (decodeWord (formatXYN 0x8 x y 0x3) = .ok (.xorReg x y) ∧
      ∃ t, exec (.xorReg x y) s = .next t ∧
        (∀ k, (t.reg x).getLsbD k = ((s.reg x).getLsbD k ^^ (s.reg y).getLsbD k)) ∧
        OnlyChanges (fun r => r = x) [] s t)

/-- 42_alu R148, R149, R151: the exact sum or difference modulo 256, and the flag in VF; with `x = 0xF` VF ends as
the result, and with `y = 0xF` the old VF is the operand (the spec's decision D4; log 7). -/
def Obligations.FlagArithmetic : Prop :=
  ∀ (x y : Reg) (s : State),
    (∃ t, exec (.addReg x y) s = .next t ∧
      (t.reg x).toNat = ((s.reg x).toNat + (s.reg y).toNat) % 256 ∧
      (x ≠ VF → t.reg VF = if 255 < (s.reg x).toNat + (s.reg y).toNat then 1 else 0) ∧
      OnlyChanges (fun r => r = x ∨ r = VF) [] s t) ∧
    (∃ t, exec (.subReg x y) s = .next t ∧
      (t.reg x).toNat = ((s.reg x).toNat + 256 - (s.reg y).toNat) % 256 ∧
      (x ≠ VF → t.reg VF = if (s.reg x).toNat > (s.reg y).toNat then 1 else 0) ∧
      OnlyChanges (fun r => r = x ∨ r = VF) [] s t) ∧
    (∃ t, exec (.subnReg x y) s = .next t ∧
      (t.reg x).toNat = ((s.reg y).toNat + 256 - (s.reg x).toNat) % 256 ∧
      (x ≠ VF → t.reg VF = if (s.reg y).toNat > (s.reg x).toNat then 1 else 0) ∧
      OnlyChanges (fun r => r = x ∨ r = VF) [] s t)

/-- 42_alu R150, R152: one bit position, the bit shifted out in VF, `V[x]` the operand whatever `y`; with `x = 0xF`
VF ends as the result (the spec's decision D4; log 7). -/
def Obligations.ShiftByOne : Prop :=
  ∀ (x y : Reg) (s : State),
    (∃ t, exec (.shr x y) s = .next t ∧ (t.reg x).toNat = (s.reg x).toNat / 2 ∧
      (x ≠ VF → (t.reg VF).toNat = (s.reg x).toNat % 2) ∧
      OnlyChanges (fun r => r = x ∨ r = VF) [] s t) ∧
    (∃ t, exec (.shl x y) s = .next t ∧ (t.reg x).toNat = 2 * (s.reg x).toNat % 256 ∧
      (x ≠ VF → (t.reg VF).toNat = (s.reg x).toNat / 128) ∧
      OnlyChanges (fun r => r = x ∨ r = VF) [] s t)

/-- 42_alu R153, 10_state R40 (the spec's decision D21; log 2): `V[x]` receives this cycle's random byte masked, and
every byte can arrive. -/
def Obligations.RandomByteMasked : Prop :=
  ∀ (x : Reg) (nn : Byte) (s : State),
    (∃ t, exec (.rnd x nn) s = .next t ∧
      (∀ k, (t.reg x).getLsbD k = (s.rnd.getLsbD k && nn.getLsbD k)) ∧
      OnlyChanges (fun r => r = x) [] s t) ∧
    (∀ (keys : Keys) (r : Byte), ∃ t, exec (.rnd x nn) (s.supply keys r) = .next t ∧ t.reg x = r &&& nn)

/-! ## Control flow -/

/-- 41_flow R122. -/
def Obligations.JumpAbsolute : Prop :=
  ∀ (nnn : Addr12) (s : State),
    decodeWord (formatA 0x1 nnn) = .ok (.jp nnn) ∧
    ∃ t, exec (.jp nnn) s = .next t ∧ t.pc.toNat = nnn.toNat ∧ OnlyChanges noReg [.pc] s t

/-- 41_flow R123, 60_exceptions R221 (the spec's decision D6; log 9): with a free slot `CALL` pushes the advanced
`PC` and jumps; with 16 entries it raises `StackOverflow`; above 16 the model stops (log 4). -/
def Obligations.CallPushesAndJumps : Prop :=
  ∀ (nnn : Addr12) (s : State),
    (s.sp.toNat < 16 →
      ∃ t, exec (.call nnn) s = .next t ∧ t.pc.toNat = nnn.toNat ∧ t.sp.toNat = s.sp.toNat + 1 ∧
        t.stack[s.sp.toNat]? = some s.pc ∧
        (∀ k : Fin 16, k.val ≠ s.sp.toNat → t.stack[k.val] = s.stack[k.val]) ∧
        OnlyChanges noReg [.pc, .stack] s t) ∧
    (s.sp = 16 →
      ∃ t, exec (.call nnn) s = .next t ∧ t.fault = some ⟨.stackOverflow, s.pc - 2, some s.ir⟩ ∧
        OnlyChanges noReg [.faultReg] s t) ∧
    (16 < s.sp.toNat → exec (.call nnn) s = .fault (.illegalStackPointer s.sp))

/-- 41_flow R121, 60_exceptions R222 (the spec's decision D6; log 9): with an entry `RET` pops all 16 bits of it into
`PC`, keeping the entry; with none it raises `StackUnderflow`; above 16 the model stops (log 4). -/
def Obligations.ReturnPopsAndJumps : Prop :=
  ∀ s : State,
    (∀ k : Fin 16, s.sp.toNat = k.val + 1 →
      ∃ t, exec .ret s = .next t ∧ t.pc = s.stack[k.val] ∧ t.sp.toNat = k.val ∧ t.stack = s.stack ∧
        OnlyChanges noReg [.pc, .stack] s t) ∧
    (s.sp = 0 →
      ∃ t, exec .ret s = .next t ∧ t.fault = some ⟨.stackUnderflow, s.pc - 2, some s.ir⟩ ∧
        OnlyChanges noReg [.faultReg] s t) ∧
    (16 < s.sp.toNat → exec .ret s = .fault (.illegalStackPointer s.sp))

/-- 41_flow R123, the source's round trip: `CALL NNN` then `RET` restores `PC` to the address after the call, `SP` to
its value before, and every live stack entry. -/
def Obligations.CallThenReturn : Prop :=
  ∀ (s t : State) (nnn : Addr12), s.At (formatA 0x2 nnn) → s.sp.toNat < 16 → step s = .next t →
    t.At 0x00EE →
    ∃ u, step t = .next u ∧ u.running ∧ u.pc = s.pc + 2 ∧ u.sp = s.sp ∧
      ∀ k : Fin 16, k.val < s.sp.toNat → u.stack[k.val] = s.stack[k.val]

/-- 41_flow R124, R125: the skips on an immediate, exact complements. -/
def Obligations.SkipOnImmediate : Prop :=
  ∀ (x : Reg) (nn : Byte) (s : State),
    (decodeWord (formatXK 0x3 x nn) = .ok (.seImm x nn) ∧
      ∃ t, exec (.seImm x nn) s = .next t ∧ t.pc = (if s.reg x = nn then s.pc + 2 else s.pc) ∧
        OnlyChanges noReg [.pc] s t) ∧
    (decodeWord (formatXK 0x4 x nn) = .ok (.sneImm x nn) ∧
      ∃ t, exec (.sneImm x nn) s = .next t ∧ t.pc = (if s.reg x = nn then s.pc else s.pc + 2) ∧
        OnlyChanges noReg [.pc] s t)

/-- 41_flow R126, R127: the skips on two registers. -/
def Obligations.SkipOnRegisters : Prop :=
  ∀ (x y : Reg) (s : State),
    (decodeWord (formatXYN 0x5 x y 0x0) = .ok (.seReg x y) ∧
      ∃ t, exec (.seReg x y) s = .next t ∧ t.pc = (if s.reg x = s.reg y then s.pc + 2 else s.pc) ∧
        OnlyChanges noReg [.pc] s t) ∧
    (decodeWord (formatXYN 0x9 x y 0x0) = .ok (.sneReg x y) ∧
      ∃ t, exec (.sneReg x y) s = .next t ∧ t.pc = (if s.reg x = s.reg y then s.pc else s.pc + 2) ∧
        OnlyChanges noReg [.pc] s t)

/-- 41_flow R120: measured from the skip instruction's own address, `PC` moves by 2 when the condition is false and
by 4 when it is true, for all six skips. -/
def Obligations.SkipsMeasureFromInstruction : Prop :=
  ∀ (s t : State) (w : Word), s.At w → step s = .next t → t.running →
    match decodeWord w with
    | .ok (.seImm x nn) => t.pc.toNat = s.pc.toNat + (if s.reg x = nn then 4 else 2)
    | .ok (.sneImm x nn) => t.pc.toNat = s.pc.toNat + (if s.reg x ≠ nn then 4 else 2)
    | .ok (.seReg x y) => t.pc.toNat = s.pc.toNat + (if s.reg x = s.reg y then 4 else 2)
    | .ok (.sneReg x y) => t.pc.toNat = s.pc.toNat + (if s.reg x ≠ s.reg y then 4 else 2)
    | .ok (.skp x) => t.pc.toNat = s.pc.toNat + (if s.keys[(s.reg x).toNat]? = some true then 4 else 2)
    | .ok (.sknp x) => t.pc.toNat = s.pc.toNat + (if s.keys[(s.reg x).toNat]? = some false then 4 else 2)
    | _ => True

/-- 41_flow R128 (the spec's decision D9; log 12): the sum is kept in 16 bits and not masked to 12. -/
def Obligations.JumpV0NotMasked : Prop :=
  ∀ (nnn : Addr12) (s : State),
    ∃ t, exec (.jpV0 nnn) s = .next t ∧ t.pc.toNat = nnn.toNat + (s.reg 0).toNat ∧
      OnlyChanges noReg [.pc] s t

/-! ## Index register and memory -/

/-- 43_index_memory R171 (general knowledge G1; log 5), R172 (D8; log 12), R173 (D16; log 15): the three writers of
`I`; VF is not written. -/
def Obligations.IndexRegisterLoads : Prop :=
  (∀ (nnn : Addr12) (s : State), ∃ t, exec (.ldI nnn) s = .next t ∧ t.index.toNat = nnn.toNat ∧
    OnlyChanges noReg [.index] s t) ∧
  (∀ (x : Reg) (s : State), ∃ t, exec (.addI x) s = .next t ∧
    t.index.toNat = (s.index.toNat + (s.reg x).toNat) % 65536 ∧ OnlyChanges noReg [.index] s t) ∧
  (∀ (x : Reg) (s : State), ∃ t, exec (.ldF x) s = .next t ∧
    t.index.toNat = 0x050 + 5 * (s.reg x).toNat ∧ OnlyChanges noReg [.index] s t)

/-- 43_index_memory R174 (bound check: D5; log 8): hundreds, tens and ones at `I`, `I+1`, `I+2`, every other byte and
`I` as before; with `I + 2` above 0xFFF the fault, and nothing written. -/
def Obligations.DecimalDigitsStored : Prop :=
  ∀ (x : Reg) (s : State),
    (s.base + 2 ≤ 0xFFF →
      ∃ t, exec (.ldB x) s = .next t ∧
        (t.mem.read s.base).toNat = (s.reg x).toNat / 100 ∧
        (t.mem.read (s.base + 1)).toNat = (s.reg x).toNat / 10 % 10 ∧
        (t.mem.read (s.base + 2)).toNat = (s.reg x).toNat % 10 ∧
        (∀ a, ¬ (s.base ≤ a ∧ a ≤ s.base + 2) → t.mem.read a = s.mem.read a) ∧
        OnlyChanges noReg [.memory] s t) ∧
    (0xFFF < s.base + 2 →
      ∃ t, exec (.ldB x) s = .next t ∧
        t.fault = some ⟨.memoryOutOfBounds .write (max s.base 0x1000), s.pc - 2, some s.ir⟩ ∧
        OnlyChanges noReg [.faultReg] s t)

/-- 43_index_memory R175 (bound check: D5; log 8): `V[0]` to `V[x]` at `I` to `I + x`, every other byte and `I` as
before; with `I + x` above 0xFFF the fault, and nothing written. -/
def Obligations.RegistersStored : Prop :=
  ∀ (x : Reg) (s : State),
    (s.base + x.val ≤ 0xFFF →
      ∃ t, exec (.storeRegs x) s = .next t ∧
        (∀ k : Reg, k ≤ x → t.mem.read (s.base + k.val) = s.reg k) ∧
        (∀ a, ¬ (s.base ≤ a ∧ a ≤ s.base + x.val) → t.mem.read a = s.mem.read a) ∧
        OnlyChanges noReg [.memory] s t) ∧
    (0xFFF < s.base + x.val →
      ∃ t, exec (.storeRegs x) s = .next t ∧
        t.fault = some ⟨.memoryOutOfBounds .write (max s.base 0x1000), s.pc - 2, some s.ir⟩ ∧
        OnlyChanges noReg [.faultReg] s t)

/-- 43_index_memory R176 (bound check: D5; log 8): the bytes at `I` to `I + x` in `V[0]` to `V[x]`, the registers
above and `I` as before; with `I + x` above 0xFFF the fault, and no register written. -/
def Obligations.RegistersLoaded : Prop :=
  ∀ (x : Reg) (s : State),
    (s.base + x.val ≤ 0xFFF →
      ∃ t, exec (.loadRegs x) s = .next t ∧
        (∀ k : Reg, k ≤ x → t.reg k = s.mem.read (s.base + k.val)) ∧
        OnlyChanges (fun r => r ≤ x) [] s t) ∧
    (0xFFF < s.base + x.val →
      ∃ t, exec (.loadRegs x) s = .next t ∧
        t.fault = some ⟨.memoryOutOfBounds .read (max s.base 0x1000), s.pc - 2, some s.ir⟩ ∧
        OnlyChanges noReg [.faultReg] s t)

/-- 43_index_memory R176, the source's round trip: registers stored with `LD [I],Vx` come back with `LD Vx,[I]` from
any later state whose memory and `I` are those the store left, whatever its registers hold by then. -/
def Obligations.StoreThenLoadRestores : Prop :=
  ∀ (x : Reg) (s t u : State), s.base + x.val ≤ 0xFFF → exec (.storeRegs x) s = .next t →
    u.mem = t.mem → u.index = t.index →
    ∃ v, exec (.loadRegs x) u = .next v ∧ ∀ k : Reg, k ≤ x → v.reg k = s.reg k

/-- 20_memory R60: a store over the next instruction is what the next cycle fetches. -/
def Obligations.StoredWordIsFetchedNext : Prop :=
  ∀ (x : Reg) (s t : State), 1 ≤ x.val → s.At (formatXK 0xF x 0x55) → s.index = s.pc + 2 →
    s.base + x.val ≤ 0xFFF → step s = .next t → t.At (wordOfBytes (s.reg 0) (s.reg 1))

/-! ## Display -/

/-- 44_display R191: every cell off, VF and everything else as before. -/
def Obligations.ClearScreen : Prop :=
  decodeWord 0x00E0 = .ok .cls ∧
  ∀ s : State, ∃ t, exec .cls s = .next t ∧ (∀ y x, t.fb.cell y x = false) ∧ OnlyChanges noReg [.screen] s t

/-- 44_display R192 (bit 7 is column 0: general knowledge G2, log 6; bound check: D5, log 8; latched coordinates: D4,
log 7): where the sprite is in memory or `n = 0`, each of its pixels is xored onto the cell at its column and row
modulo 64 and 32, every other cell is as before, and VF is 1 exactly when a pixel met a cell that was on; where it
is not in memory, the fault, and nothing drawn. -/
def Obligations.DrawSprite : Prop :=
  ∀ (x y : Reg) (n : Fin 16) (s : State),
    let row := fun r : Nat => wrapRow ((s.reg y).toNat + r)
    let col := fun c : Nat => wrapCol ((s.reg x).toNat + c)
    let bit := fun r c : Nat => (s.mem.read (s.base + r)).getLsbD (7 - c)
    ((n.val = 0 ∨ s.base + n.val - 1 ≤ 0xFFF) →
      ∃ t, exec (.drw x y n) s = .next t ∧
        (∀ r c, r < n.val → c < 8 → t.fb.cell (row r) (col c) = (s.fb.cell (row r) (col c) ^^ bit r c)) ∧
        (∀ cy cx, (∀ r c, r < n.val → c < 8 → ¬ (row r = cy ∧ col c = cx)) →
          t.fb.cell cy cx = s.fb.cell cy cx) ∧
        ((∃ r c, r < n.val ∧ c < 8 ∧ bit r c = true ∧ s.fb.cell (row r) (col c) = true) → t.reg VF = 1) ∧
        ((∀ r c, r < n.val → c < 8 → bit r c = true → s.fb.cell (row r) (col c) = false) → t.reg VF = 0) ∧
        OnlyChanges (fun r => r = VF) [.screen] s t) ∧
    (0 < n.val → 0xFFF < s.base + n.val - 1 →
      ∃ t, exec (.drw x y n) s = .next t ∧
        t.fault = some ⟨.memoryOutOfBounds .read (max s.base 0x1000), s.pc - 2, some s.ir⟩ ∧
        OnlyChanges noReg [.faultReg] s t)

/-- 44_display R192, the source's property: drawing the same sprite twice restores the framebuffer (neither
coordinate register being VF); on a blank framebuffer the first draw reports no collision and the second reports one
exactly when the sprite has a pixel. Bit order: log 6. -/
def Obligations.DrawTwiceRestores : Prop :=
  ∀ (x y : Reg) (n : Fin 16) (s t : State), x ≠ VF → y ≠ VF →
    (n.val = 0 ∨ s.base + n.val - 1 ≤ 0xFFF) → exec (.drw x y n) s = .next t →
    ∃ u, exec (.drw x y n) t = .next u ∧ u.fb = s.fb ∧
      ((∀ cy cx, s.fb.cell cy cx = false) →
        t.reg VF = 0 ∧
        (u.reg VF = 1 ↔ ∃ r c, r < n.val ∧ c < 8 ∧ (s.mem.read (s.base + r)).getLsbD (7 - c) = true))

/-! ## Keypad and timers -/

/-- 45_keypad_timers R201, R202, 60_exceptions R226 (the spec's decision D15; log 14): with a key number the skips
look at that key of this cycle's snapshot, exact complements; with a number above 15 both raise. -/
def Obligations.KeySkips : Prop :=
  ∀ (x : Reg) (s : State),
    (∀ k : Fin 16, (s.reg x).toNat = k.val →
      (∃ t, exec (.skp x) s = .next t ∧ t.pc = (if s.keys[k.val] = true then s.pc + 2 else s.pc) ∧
        OnlyChanges noReg [.pc] s t) ∧
      (∃ t, exec (.sknp x) s = .next t ∧ t.pc = (if s.keys[k.val] = true then s.pc else s.pc + 2) ∧
        OnlyChanges noReg [.pc] s t)) ∧
    (15 < (s.reg x).toNat →
      (∃ t, exec (.skp x) s = .next t ∧
        t.fault = some ⟨.keyIndexOutOfRange (s.reg x), s.pc - 2, some s.ir⟩ ∧ OnlyChanges noReg [.faultReg] s t) ∧
      (∃ t, exec (.sknp x) s = .next t ∧
        t.fault = some ⟨.keyIndexOutOfRange (s.reg x), s.pc - 2, some s.ir⟩ ∧ OnlyChanges noReg [.faultReg] s t))

/-- 45_keypad_timers R203: the least pressed key's number into `V[x]`; with no key pressed `PC` goes back by 2. -/
def Obligations.KeyWaitTakesLeastKey : Prop :=
  ∀ (x : Reg) (s : State),
    decodeWord (formatXK 0xF x 0x0A) = .ok (.ldVxK x) ∧
    (∀ k : Fin 16, s.keys[k.val] = true → (∀ j : Fin 16, j < k → s.keys[j.val] = false) →
      ∃ t, exec (.ldVxK x) s = .next t ∧ (t.reg x).toNat = k.val ∧ OnlyChanges (fun r => r = x) [] s t) ∧
    ((∀ k : Fin 16, s.keys[k.val] = false) →
      ∃ t, exec (.ldVxK x) s = .next t ∧ t.pc.toNat = (s.pc.toNat + 65536 - 2) % 65536 ∧
        OnlyChanges noReg [.pc] s t)

/-- 45_keypad_timers R203 (a), (b): a stalled cycle ends with `PC` where it was and the timers ticked, nothing else
but `IR` and the inputs changed; so the same instruction runs again. -/
def Obligations.KeyWaitStalls : Prop :=
  ∀ (x : Reg) (s : State), s.At (formatXK 0xF x 0x0A) → (∀ k : Fin 16, s.keys[k.val] = false) →
    ∃ t, step s = .next t ∧ t.At (formatXK 0xF x 0x0A) ∧
      t.dt.toNat = s.dt.toNat - 1 ∧ t.st.toNat = s.st.toNat - 1 ∧
      OnlyChanges noReg [.instrReg, .delay, .sound, .hostInputs] s t

/-- 45_keypad_timers R204, R205, R206: whole bytes between a register and a timer, before the cycle's tick. -/
def Obligations.TimerLoads : Prop :=
  ∀ (x : Reg) (s : State),
    (decodeWord (formatXK 0xF x 0x07) = .ok (.ldVxDt x) ∧
      ∃ t, exec (.ldVxDt x) s = .next t ∧ t.reg x = s.dt ∧ OnlyChanges (fun r => r = x) [] s t) ∧
    (decodeWord (formatXK 0xF x 0x15) = .ok (.ldDtVx x) ∧
      ∃ t, exec (.ldDtVx x) s = .next t ∧ t.dt = s.reg x ∧ OnlyChanges noReg [.delay] s t) ∧
    (decodeWord (formatXK 0xF x 0x18) = .ok (.ldStVx x) ∧
      ∃ t, exec (.ldStVx x) s = .next t ∧ t.st = s.reg x ∧ OnlyChanges noReg [.sound] s t)
end

