-- ==== Sys2Proof/Laws/Decode.lean ====
section
/-! SUPPORT. The fields of an encoded word are the fields it was made of, and a word is made of its fields. -/

namespace Sys2Proof

theorem regBits_toFin (r : Fin 16) : (regBits r).toFin = r := rfl

theorem regBits_xField (w : Word) : regBits (xField w) = w.extractLsb' 8 4 := rfl
theorem regBits_yField (w : Word) : regBits (yField w) = w.extractLsb' 4 4 := rfl
theorem regBits_nField (w : Word) : regBits (nField w) = w.extractLsb' 0 4 := rfl
theorem regBits_opField (w : Word) : regBits (opField w) = w.extractLsb' 12 4 := rfl

/-! ## Bits of an encoded word -/

theorem getLsbD_formatA (op : BitVec 4) (nnn : Addr12) (i : Nat) :
    (formatA op nnn).getLsbD i = if i < 12 then nnn.getLsbD i else op.getLsbD (i - 12) :=
  BitVec.getLsbD_append

theorem getLsbD_formatXK (op : BitVec 4) (x : Reg) (nn : Byte) (i : Nat) :
    (formatXK op x nn).getLsbD i =
      if i < 8 then nn.getLsbD i
      else if i - 8 < 4 then (regBits x).getLsbD (i - 8) else op.getLsbD (i - 8 - 4) :=
  BitVec.getLsbD_append.trans (congrArg _ BitVec.getLsbD_append)

theorem getLsbD_formatXYN (op : BitVec 4) (x y : Reg) (n : Fin 16) (i : Nat) :
    (formatXYN op x y n).getLsbD i =
      if i < 4 then (regBits n).getLsbD i
      else if i - 4 < 4 then (regBits y).getLsbD (i - 4)
      else if i - 4 - 4 < 4 then (regBits x).getLsbD (i - 4 - 4) else op.getLsbD (i - 4 - 4 - 4) :=
  BitVec.getLsbD_append.trans
    (congrArg _ (BitVec.getLsbD_append.trans (congrArg _ BitVec.getLsbD_append)))

theorem getLsbD_wordOfBytes (hi lo : Byte) (i : Nat) :
    (wordOfBytes hi lo).getLsbD i = if i < 8 then lo.getLsbD i else hi.getLsbD (i - 8) :=
  BitVec.getLsbD_append

/-! ## Fields of an encoded word -/

@[simp] theorem opField_formatA (op : BitVec 4) (nnn : Addr12) : opField (formatA op nnn) = op.toFin := by
  refine congrArg BitVec.toFin (BitVec.eq_of_getLsbD_eq fun i hi => ?_)
  simp [getLsbD_formatA, hi]

@[simp] theorem nnnField_formatA (op : BitVec 4) (nnn : Addr12) : nnnField (formatA op nnn) = nnn := by
  refine BitVec.eq_of_getLsbD_eq fun i hi => ?_
  simp [nnnField, getLsbD_formatA, hi]

@[simp] theorem opField_formatXK (op : BitVec 4) (x : Reg) (nn : Byte) :
    opField (formatXK op x nn) = op.toFin := by
  refine congrArg BitVec.toFin (BitVec.eq_of_getLsbD_eq fun i hi => ?_)
  simp [getLsbD_formatXK, hi, show ¬ 12 + i < 8 by omega, show ¬ 12 + i - 8 < 4 by omega,
    show 12 + i - 8 - 4 = i by omega]

@[simp] theorem xField_formatXK (op : BitVec 4) (x : Reg) (nn : Byte) : xField (formatXK op x nn) = x := by
  refine (congrArg BitVec.toFin (BitVec.eq_of_getLsbD_eq fun i hi => ?_)).trans (regBits_toFin x)
  simp [getLsbD_formatXK, hi, show ¬ 8 + i < 8 by omega]

@[simp] theorem nnField_formatXK (op : BitVec 4) (x : Reg) (nn : Byte) : nnField (formatXK op x nn) = nn := by
  refine BitVec.eq_of_getLsbD_eq fun i hi => ?_
  simp [nnField, getLsbD_formatXK, hi]

@[simp] theorem opField_formatXYN (op : BitVec 4) (x y : Reg) (n : Fin 16) :
    opField (formatXYN op x y n) = op.toFin := by
  refine congrArg BitVec.toFin (BitVec.eq_of_getLsbD_eq fun i hi => ?_)
  simp [getLsbD_formatXYN, hi, show ¬ 12 + i < 4 by omega, show ¬ 12 + i - 4 < 4 by omega,
    show ¬ 12 + i - 4 - 4 < 4 by omega, show 12 + i - 4 - 4 - 4 = i by omega]

@[simp] theorem xField_formatXYN (op : BitVec 4) (x y : Reg) (n : Fin 16) :
    xField (formatXYN op x y n) = x := by
  refine (congrArg BitVec.toFin (BitVec.eq_of_getLsbD_eq fun i hi => ?_)).trans (regBits_toFin x)
  simp [getLsbD_formatXYN, hi, show ¬ 8 + i < 4 by omega, show ¬ 8 + i - 4 < 4 by omega,
    show 8 + i - 4 - 4 = i by omega]

@[simp] theorem yField_formatXYN (op : BitVec 4) (x y : Reg) (n : Fin 16) :
    yField (formatXYN op x y n) = y := by
  refine (congrArg BitVec.toFin (BitVec.eq_of_getLsbD_eq fun i hi => ?_)).trans (regBits_toFin y)
  simp [getLsbD_formatXYN, hi, show ¬ 4 + i < 4 by omega]

@[simp] theorem nField_formatXYN (op : BitVec 4) (x y : Reg) (n : Fin 16) :
    nField (formatXYN op x y n) = n := by
  refine (congrArg BitVec.toFin (BitVec.eq_of_getLsbD_eq fun i hi => ?_)).trans (regBits_toFin n)
  simp [getLsbD_formatXYN, hi]

/-! ## A word from its fields -/

theorem formatA_fields (w : Word) : formatA (regBits (opField w)) (nnnField w) = w := by
  refine BitVec.eq_of_getLsbD_eq fun i hi => ?_
  simp only [getLsbD_formatA, regBits_opField, nnnField, BitVec.getLsbD_extractLsb']
  by_cases h : i < 12
  · simp [h]
  · simp [h, show i - 12 < 4 by omega, show 12 + (i - 12) = i by omega]

theorem formatXK_fields (w : Word) : formatXK (regBits (opField w)) (xField w) (nnField w) = w := by
  refine BitVec.eq_of_getLsbD_eq fun i hi => ?_
  simp only [getLsbD_formatXK, regBits_opField, regBits_xField, nnField,
    BitVec.getLsbD_extractLsb']
  by_cases h : i < 8
  · simp [h]
  · by_cases h2 : i - 8 < 4
    · simp [h, h2, show 8 + (i - 8) = i by omega]
    · simp [h, h2, show i - 8 - 4 < 4 by omega, show 12 + (i - 8 - 4) = i by omega]

theorem formatXYN_fields (w : Word) :
    formatXYN (regBits (opField w)) (xField w) (yField w) (nField w) = w := by
  refine BitVec.eq_of_getLsbD_eq fun i hi => ?_
  simp only [getLsbD_formatXYN, regBits_opField, regBits_xField, regBits_yField, regBits_nField,
    BitVec.getLsbD_extractLsb']
  by_cases h : i < 4
  · simp [h]
  · by_cases h2 : i - 4 < 4
    · simp [h, h2, show 4 + (i - 4) = i by omega]
    · by_cases h3 : i - 4 - 4 < 4
      · simp [h, h2, h3, show 8 + (i - 4 - 4) = i by omega]
      · simp [h, h2, h3, show i - 4 - 4 - 4 < 4 by omega, show 12 + (i - 4 - 4 - 4) = i by omega]

/-- A word's bytes, high byte first, make the word. 20_memory R51. -/
@[simp] theorem wordOfBytes_extract (w : Word) :
    wordOfBytes (w.extractLsb' 8 8) (w.extractLsb' 0 8) = w := by
  refine BitVec.eq_of_getLsbD_eq fun i hi => ?_
  simp only [getLsbD_wordOfBytes, BitVec.getLsbD_extractLsb']
  by_cases h : i < 8
  · simp [h]
  · simp [h, show i - 8 < 8 by omega, show 8 + (i - 8) = i by omega]

end Sys2Proof
end

