-- ==== Sys2Proof/Laws/Memory.lean ====
section
/-! SUPPORT. The laws of memory: reading after writing, the canonical form kept by every operation, and that memories
in canonical form that read alike are equal data. -/

namespace Sys2Proof.Machine

/-! ## Reading after one write -/

theorem Memory.read_erase (m : Memory) (a b : Nat) :
    (m.erase a).read b = if b = a then Memory.unlisted a else m.read b := by
  induction m with
  | nil => by_cases h : b = a <;> simp [Memory.erase, Memory.read, h]
  | cons c m ih =>
    obtain ⟨k, w⟩ := c
    by_cases hk : a = k
    · subst hk
      by_cases hb : b = a
      · subst hb; simp [Memory.erase, ih]
      · simp [Memory.erase, Memory.read, hb, ih]
    · by_cases hb : b = k
      · subst hb; simp [Memory.erase, Memory.read, hk, Ne.symm hk]
      · simp [Memory.erase, Memory.read, hk, hb, ih]

theorem Memory.read_insert (m : Memory) (a : Nat) (x : Byte) (b : Nat) (h : ∀ c ∈ m, c.1 ≠ a) :
    (m.insert a x).read b = if b = a then x else m.read b := by
  induction m with
  | nil => simp [Memory.insert, Memory.read]
  | cons c m ih =>
    obtain ⟨k, w⟩ := c
    have hk : k ≠ a := h (k, w) (List.mem_cons_self ..)
    have ih := ih fun c hc => h c (List.mem_cons_of_mem _ hc)
    by_cases hlt : a < k
    · simp [Memory.insert, Memory.read, hlt]
    · by_cases hb : b = k
      · subst hb; simp [Memory.insert, Memory.read, hlt, hk]
      · simp [Memory.insert, Memory.read, hlt, hb, ih]

theorem Memory.mem_erase {m : Memory} {a : Nat} {c : Host.Cell} : c ∈ m.erase a ↔ c ∈ m ∧ c.1 ≠ a := by
  induction m with
  | nil => simp [Memory.erase]
  | cons d m ih =>
    obtain ⟨k, w⟩ := d
    by_cases hk : a = k
    · subst hk
      simp only [Memory.erase, if_true, List.mem_cons, ih]
      constructor
      · exact fun ⟨h, n⟩ => ⟨.inr h, n⟩
      · rintro ⟨rfl | h, n⟩
        · exact absurd rfl n
        · exact ⟨h, n⟩
    · simp only [Memory.erase, hk, if_false, List.mem_cons, ih]
      constructor
      · rintro (rfl | ⟨h, n⟩)
        · exact ⟨.inl rfl, Ne.symm hk⟩
        · exact ⟨.inr h, n⟩
      · rintro ⟨rfl | h, n⟩
        · exact .inl rfl
        · exact .inr ⟨h, n⟩

/-- A read after a write: the byte written there, and every other byte as before. 20_memory R59. -/
theorem Memory.read_write (m : Memory) (a : Nat) (x : Byte) (b : Nat) :
    (m.write a x).read b = if b = a then x else m.read b := by
  by_cases hx : x = Memory.unlisted a
  · subst hx; simp [Memory.write, Memory.read_erase]
  · rw [Memory.write, if_neg hx, Memory.read_insert _ _ _ _ fun c hc => (Memory.mem_erase.1 hc).2,
      Memory.read_erase]
    by_cases hb : b = a <;> simp [hb]

/-! ## Runs of bytes -/

theorem Memory.read_writeList (xs : List Byte) : ∀ (m : Memory) (a b : Nat),
    (m.writeList a xs).read b = if a ≤ b ∧ b < a + xs.length then xs.getD (b - a) 0 else m.read b := by
  induction xs with
  | nil => intro m a b; simp [Memory.writeList]
  | cons x xs ih =>
    intro m a b
    rw [Memory.writeList, ih, Memory.read_write]
    rcases Nat.lt_trichotomy b a with h | rfl | h
    · simp [show ¬ a + 1 ≤ b by omega, show ¬ a ≤ b by omega, show b ≠ a by omega]
    · simp
    · obtain ⟨d, rfl⟩ : ∃ d, b = a + 1 + d := ⟨b - (a + 1), by omega⟩
      simp [show a ≤ a + 1 + d by omega, show a + 1 + d - (a + 1) = d by omega,
        show a + 1 + d - a = d + 1 by omega, show (a + 1 + d < a + 1 + xs.length) ↔ d < xs.length by omega,
        show (a + 1 + d < a + (xs.length + 1)) ↔ d < xs.length by omega, show a + 1 + d ≠ a by omega]

@[simp] theorem Memory.length_readList (m : Memory) : ∀ a n, (m.readList a n).length = n
  | _, 0 => rfl
  | a, n + 1 => by simp [Memory.readList, Memory.length_readList m (a + 1) n]

theorem Memory.getElem?_readList (m : Memory) : ∀ (n a k : Nat),
    (m.readList a n)[k]? = if k < n then some (m.read (a + k)) else none
  | 0, a, k => by simp [Memory.readList]
  | n + 1, a, 0 => by simp [Memory.readList]
  | n + 1, a, k + 1 => by
    simp [Memory.readList, Memory.getElem?_readList m n (a + 1) k, Nat.add_right_comm a 1 k, Nat.add_assoc]

/-- Two memories that read alike on a run of bytes give the same run. -/
theorem Memory.readList_congr {m m' : Memory} : ∀ {n a : Nat},
    (∀ b, a ≤ b → b < a + n → m'.read b = m.read b) → m'.readList a n = m.readList a n
  | 0, _, _ => rfl
  | n + 1, a, h => by
    rw [Memory.readList, Memory.readList, h a (by omega) (by omega),
      Memory.readList_congr fun b h1 h2 => h b (by omega) (by omega)]

/-! ## The canonical form -/

/-- The canonical form as one statement about pairs and one about cells. -/
theorem Memory.wf_iff (m : Memory) :
    m.wf = true ↔ m.Pairwise (fun c d => c.1 < d.1) ∧ ∀ c ∈ m, c.2 ≠ Memory.unlisted c.1 := by
  induction m with
  | nil => simp [Memory.wf]
  | cons c m ih =>
    obtain ⟨a, x⟩ := c
    cases m with
    | nil => simp [Memory.wf]
    | cons d m =>
      obtain ⟨b, y⟩ := d
      simp only [Memory.wf, Bool.and_eq_true, bne_iff_ne, decide_eq_true_eq, ih, List.pairwise_cons,
        List.mem_cons]
      constructor
      · rintro ⟨⟨hx, hab⟩, ⟨hb, hp⟩, hv⟩
        refine ⟨⟨?_, hb, hp⟩, ?_⟩
        · rintro e (rfl | he)
          · exact hab
          · exact Nat.lt_trans hab (hb e he)
        · rintro e (rfl | he)
          · exact hx
          · exact hv e he
      · rintro ⟨⟨ha, hb, hp⟩, hv⟩
        exact ⟨⟨hv _ (.inl rfl), ha _ (.inl rfl)⟩, ⟨hb, hp⟩, fun e he => hv e (.inr he)⟩

theorem Memory.inRange_iff (m : Memory) : m.inRange = true ↔ ∀ c ∈ m, c.1 ≤ 0xFFF := by
  simp [Memory.inRange]

theorem Memory.pairwise_erase {m : Memory} (a : Nat) (h : m.Pairwise (fun c d => c.1 < d.1)) :
    (m.erase a).Pairwise (fun c d => c.1 < d.1) := by
  induction m with
  | nil => simp [Memory.erase]
  | cons c m ih =>
    obtain ⟨k, w⟩ := c
    rw [List.pairwise_cons] at h
    by_cases hk : a = k
    · simpa [Memory.erase, hk] using hk ▸ ih h.2
    · simp only [Memory.erase, hk, if_false, List.pairwise_cons]
      exact ⟨fun d hd => h.1 d (Memory.mem_erase.1 hd).1, ih h.2⟩

theorem Memory.mem_insert {m : Memory} {a : Nat} {x : Byte} {c : Host.Cell} :
    c ∈ m.insert a x ↔ c = (a, x) ∨ c ∈ m := by
  induction m with
  | nil => simp [Memory.insert]
  | cons d m ih =>
    obtain ⟨k, w⟩ := d
    by_cases h : a < k
    · simp [Memory.insert, h]
    · simp only [Memory.insert, h, if_false, List.mem_cons, ih]
      tauto

theorem Memory.pairwise_insert {m : Memory} {a : Nat} {x : Byte} (hn : ∀ c ∈ m, c.1 ≠ a)
    (h : m.Pairwise (fun c d => c.1 < d.1)) : (m.insert a x).Pairwise (fun c d => c.1 < d.1) := by
  induction m with
  | nil => simp [Memory.insert]
  | cons d m ih =>
    obtain ⟨k, w⟩ := d
    have hk : k ≠ a := hn (k, w) (List.mem_cons_self ..)
    have hp := List.pairwise_cons.1 h
    by_cases hlt : a < k
    · simp only [Memory.insert, hlt, if_true, List.pairwise_cons]
      refine ⟨?_, hp⟩
      intro e he
      rcases List.mem_cons.1 he with rfl | he
      · exact hlt
      · exact Nat.lt_trans hlt (hp.1 e he)
    · simp only [Memory.insert, hlt, if_false, List.pairwise_cons]
      refine ⟨?_, ih (fun c hc => hn c (List.mem_cons_of_mem _ hc)) hp.2⟩
      intro e he
      rcases Memory.mem_insert.1 he with rfl | he
      · simp only; omega
      · exact hp.1 e he

/-- A write keeps the canonical form. -/
theorem Memory.wf_write {m : Memory} (a : Nat) (x : Byte) (h : m.wf = true) : (m.write a x).wf = true := by
  rw [Memory.wf_iff] at h ⊢
  have he := Memory.pairwise_erase a h.1
  by_cases hx : x = Memory.unlisted a
  · rw [Memory.write, if_pos hx]
    exact ⟨he, fun c hc => h.2 c (Memory.mem_erase.1 hc).1⟩
  · rw [Memory.write, if_neg hx]
    refine ⟨Memory.pairwise_insert (fun c hc => (Memory.mem_erase.1 hc).2) he, fun c hc => ?_⟩
    rcases Memory.mem_insert.1 hc with rfl | hc
    · exact hx
    · exact h.2 c (Memory.mem_erase.1 hc).1

/-- A write inside memory lists no address outside it. -/
theorem Memory.inRange_write {m : Memory} {a : Nat} (x : Byte) (ha : a ≤ 0xFFF) (h : m.inRange = true) :
    (m.write a x).inRange = true := by
  rw [Memory.inRange_iff] at h ⊢
  intro c hc
  by_cases hx : x = Memory.unlisted a
  · rw [Memory.write, if_pos hx] at hc
    exact h c (Memory.mem_erase.1 hc).1
  · rw [Memory.write, if_neg hx] at hc
    rcases Memory.mem_insert.1 hc with rfl | hc
    · exact ha
    · exact h c (Memory.mem_erase.1 hc).1

theorem Memory.wf_writeList (xs : List Byte) : ∀ {m : Memory} (a : Nat),
    m.wf = true → (m.writeList a xs).wf = true := by
  induction xs with
  | nil => exact fun _ h => h
  | cons x xs ih => exact fun a h => ih (a + 1) (Memory.wf_write a x h)

theorem Memory.inRange_writeList (xs : List Byte) : ∀ {m : Memory} {a : Nat},
    a + xs.length ≤ 0x1000 → m.inRange = true → (m.writeList a xs).inRange = true := by
  induction xs with
  | nil => exact fun _ h => h
  | cons x xs ih =>
    intro m a ha h
    rw [List.length_cons] at ha
    exact ih (by omega) (Memory.inRange_write x (by omega) h)

/-! ## Equal memories are equal data -/

theorem Memory.read_of_not_listed {m : Memory} {a : Nat} (h : ∀ c ∈ m, c.1 ≠ a) :
    m.read a = Memory.unlisted a := by
  induction m with
  | nil => rfl
  | cons c m ih =>
    obtain ⟨k, w⟩ := c
    have hk : k ≠ a := h (k, w) (List.mem_cons_self ..)
    simp [Memory.read, Ne.symm hk, ih fun c hc => h c (List.mem_cons_of_mem _ hc)]

/-- Memories in canonical form that read alike at every address are the same data. -/
theorem Memory.eq_of_read_eq : ∀ {m m' : Memory}, m.wf = true → m'.wf = true →
    (∀ a, m.read a = m'.read a) → m = m' := by
  intro m
  induction m with
  | nil =>
    intro m' _ h' hr
    cases m' with
    | nil => rfl
    | cons c m' =>
      obtain ⟨k, w⟩ := c
      have h := hr k
      simp only [Memory.read, if_true] at h
      exact absurd h.symm (((Memory.wf_iff _).1 h').2 (k, w) (List.mem_cons_self ..))
  | cons c m ih =>
    obtain ⟨k, w⟩ := c
    intro m' h h' hr
    have hw := (Memory.wf_iff _).1 h
    have hp := List.pairwise_cons.1 hw.1
    cases m' with
    | nil =>
      have hk := hr k
      simp only [Memory.read, if_true] at hk
      exact absurd hk (hw.2 (k, w) (List.mem_cons_self ..))
    | cons d m' =>
      obtain ⟨k', w'⟩ := d
      have hw' := (Memory.wf_iff _).1 h'
      have hp' := List.pairwise_cons.1 hw'.1
      have hkk : k = k' := by
        rcases Nat.lt_trichotomy k k' with hlt | heq | hgt
        · exfalso
          have hk := hr k
          rw [Memory.read, if_pos rfl, Memory.read_of_not_listed (m := (k', w') :: m')] at hk
          · exact hw.2 (k, w) (List.mem_cons_self ..) hk
          · intro e he
            rcases List.mem_cons.1 he with rfl | he
            · simp only; omega
            · have := hp'.1 e he; simp only at this; omega
        · exact heq
        · exfalso
          have hk := hr k'
          rw [Memory.read.eq_def ((k', w') :: m'), Memory.read_of_not_listed (m := (k, w) :: m)] at hk
          · simp only [if_true] at hk
            exact hw'.2 (k', w') (List.mem_cons_self ..) hk.symm
          · intro e he
            rcases List.mem_cons.1 he with rfl | he
            · simp only; omega
            · have := hp.1 e he; simp only at this; omega
      subst hkk
      have hww : w = w' := by simpa [Memory.read] using hr k
      subst hww
      congr 1
      refine ih ((Memory.wf_iff _).2 ⟨hp.2, fun c hc => hw.2 c (List.mem_cons_of_mem _ hc)⟩)
        ((Memory.wf_iff _).2 ⟨hp'.2, fun c hc => hw'.2 c (List.mem_cons_of_mem _ hc)⟩) fun a => ?_
      by_cases ha : a = k
      · subst ha
        rw [Memory.read_of_not_listed fun c hc => Nat.ne_of_gt (hp.1 c hc),
          Memory.read_of_not_listed fun c hc => Nat.ne_of_gt (hp'.1 c hc)]
      · simpa [Memory.read, ha] using hr a

/-! ## The bound check -/

/-- The bound check passes exactly when nothing is accessed or the last address is at most 0xFFF. -/
theorem outOfBounds_eq_none {base n : Nat} : outOfBounds base n = none ↔ n = 0 ∨ base + n ≤ 0x1000 := by
  unfold outOfBounds
  split <;> rename_i h <;> simp only [Config.memTop] at h <;> simp <;> omega

/-- When it fails it names the lowest bad address: 0x1000, or the base if that is higher. -/
theorem outOfBounds_eq_some {base n a : Nat} :
    outOfBounds base n = some a ↔ 0 < n ∧ 0x1000 < base + n ∧ a = max base 0x1000 := by
  unfold outOfBounds
  split <;> rename_i h <;> simp only [Config.memTop] at h <;> simp <;> omega

end Sys2Proof.Machine
end

