-- ==== Sys2Proof/Laws/State.lean ====
section
/-! SUPPORT. One lemma per field per update of the state, and the reading of registers and inputs through updates. -/

namespace Sys2Proof.Machine

/-! ## `State.setReg` -/

@[simp] theorem State.setReg_v (s : State) (x : Reg) (b : Byte) : (s.setReg x b).v = s.v.set x.val b := rfl
@[simp] theorem State.setReg_pc (s : State) (x : Reg) (b : Byte) : (s.setReg x b).pc = s.pc := rfl
@[simp] theorem State.setReg_index (s : State) (x : Reg) (b : Byte) : (s.setReg x b).index = s.index := rfl
@[simp] theorem State.setReg_stack (s : State) (x : Reg) (b : Byte) : (s.setReg x b).stack = s.stack := rfl
@[simp] theorem State.setReg_sp (s : State) (x : Reg) (b : Byte) : (s.setReg x b).sp = s.sp := rfl
@[simp] theorem State.setReg_dt (s : State) (x : Reg) (b : Byte) : (s.setReg x b).dt = s.dt := rfl
@[simp] theorem State.setReg_st (s : State) (x : Reg) (b : Byte) : (s.setReg x b).st = s.st := rfl
@[simp] theorem State.setReg_ir (s : State) (x : Reg) (b : Byte) : (s.setReg x b).ir = s.ir := rfl
@[simp] theorem State.setReg_mem (s : State) (x : Reg) (b : Byte) : (s.setReg x b).mem = s.mem := rfl
@[simp] theorem State.setReg_fb (s : State) (x : Reg) (b : Byte) : (s.setReg x b).fb = s.fb := rfl
@[simp] theorem State.setReg_fault (s : State) (x : Reg) (b : Byte) : (s.setReg x b).fault = s.fault := rfl
@[simp] theorem State.setReg_inputs (s : State) (x : Reg) (b : Byte) : (s.setReg x b).inputs = s.inputs := rfl
@[simp] theorem State.setReg_inputIndex (s : State) (x : Reg) (b : Byte) : (s.setReg x b).inputIndex = s.inputIndex := rfl

/-! ## `State.setPc` -/

@[simp] theorem State.setPc_v (s : State) (a : Word) : (s.setPc a).v = s.v := rfl
@[simp] theorem State.setPc_pc (s : State) (a : Word) : (s.setPc a).pc = a := rfl
@[simp] theorem State.setPc_index (s : State) (a : Word) : (s.setPc a).index = s.index := rfl
@[simp] theorem State.setPc_stack (s : State) (a : Word) : (s.setPc a).stack = s.stack := rfl
@[simp] theorem State.setPc_sp (s : State) (a : Word) : (s.setPc a).sp = s.sp := rfl
@[simp] theorem State.setPc_dt (s : State) (a : Word) : (s.setPc a).dt = s.dt := rfl
@[simp] theorem State.setPc_st (s : State) (a : Word) : (s.setPc a).st = s.st := rfl
@[simp] theorem State.setPc_ir (s : State) (a : Word) : (s.setPc a).ir = s.ir := rfl
@[simp] theorem State.setPc_mem (s : State) (a : Word) : (s.setPc a).mem = s.mem := rfl
@[simp] theorem State.setPc_fb (s : State) (a : Word) : (s.setPc a).fb = s.fb := rfl
@[simp] theorem State.setPc_fault (s : State) (a : Word) : (s.setPc a).fault = s.fault := rfl
@[simp] theorem State.setPc_inputs (s : State) (a : Word) : (s.setPc a).inputs = s.inputs := rfl
@[simp] theorem State.setPc_inputIndex (s : State) (a : Word) : (s.setPc a).inputIndex = s.inputIndex := rfl

/-! ## `State.setIndex` -/

@[simp] theorem State.setIndex_v (s : State) (a : Word) : (s.setIndex a).v = s.v := rfl
@[simp] theorem State.setIndex_pc (s : State) (a : Word) : (s.setIndex a).pc = s.pc := rfl
@[simp] theorem State.setIndex_index (s : State) (a : Word) : (s.setIndex a).index = a := rfl
@[simp] theorem State.setIndex_stack (s : State) (a : Word) : (s.setIndex a).stack = s.stack := rfl
@[simp] theorem State.setIndex_sp (s : State) (a : Word) : (s.setIndex a).sp = s.sp := rfl
@[simp] theorem State.setIndex_dt (s : State) (a : Word) : (s.setIndex a).dt = s.dt := rfl
@[simp] theorem State.setIndex_st (s : State) (a : Word) : (s.setIndex a).st = s.st := rfl
@[simp] theorem State.setIndex_ir (s : State) (a : Word) : (s.setIndex a).ir = s.ir := rfl
@[simp] theorem State.setIndex_mem (s : State) (a : Word) : (s.setIndex a).mem = s.mem := rfl
@[simp] theorem State.setIndex_fb (s : State) (a : Word) : (s.setIndex a).fb = s.fb := rfl
@[simp] theorem State.setIndex_fault (s : State) (a : Word) : (s.setIndex a).fault = s.fault := rfl
@[simp] theorem State.setIndex_inputs (s : State) (a : Word) : (s.setIndex a).inputs = s.inputs := rfl
@[simp] theorem State.setIndex_inputIndex (s : State) (a : Word) : (s.setIndex a).inputIndex = s.inputIndex := rfl

/-! ## `State.setDt` -/

@[simp] theorem State.setDt_v (s : State) (b : Byte) : (s.setDt b).v = s.v := rfl
@[simp] theorem State.setDt_pc (s : State) (b : Byte) : (s.setDt b).pc = s.pc := rfl
@[simp] theorem State.setDt_index (s : State) (b : Byte) : (s.setDt b).index = s.index := rfl
@[simp] theorem State.setDt_stack (s : State) (b : Byte) : (s.setDt b).stack = s.stack := rfl
@[simp] theorem State.setDt_sp (s : State) (b : Byte) : (s.setDt b).sp = s.sp := rfl
@[simp] theorem State.setDt_dt (s : State) (b : Byte) : (s.setDt b).dt = b := rfl
@[simp] theorem State.setDt_st (s : State) (b : Byte) : (s.setDt b).st = s.st := rfl
@[simp] theorem State.setDt_ir (s : State) (b : Byte) : (s.setDt b).ir = s.ir := rfl
@[simp] theorem State.setDt_mem (s : State) (b : Byte) : (s.setDt b).mem = s.mem := rfl
@[simp] theorem State.setDt_fb (s : State) (b : Byte) : (s.setDt b).fb = s.fb := rfl
@[simp] theorem State.setDt_fault (s : State) (b : Byte) : (s.setDt b).fault = s.fault := rfl
@[simp] theorem State.setDt_inputs (s : State) (b : Byte) : (s.setDt b).inputs = s.inputs := rfl
@[simp] theorem State.setDt_inputIndex (s : State) (b : Byte) : (s.setDt b).inputIndex = s.inputIndex := rfl

/-! ## `State.setSt` -/

@[simp] theorem State.setSt_v (s : State) (b : Byte) : (s.setSt b).v = s.v := rfl
@[simp] theorem State.setSt_pc (s : State) (b : Byte) : (s.setSt b).pc = s.pc := rfl
@[simp] theorem State.setSt_index (s : State) (b : Byte) : (s.setSt b).index = s.index := rfl
@[simp] theorem State.setSt_stack (s : State) (b : Byte) : (s.setSt b).stack = s.stack := rfl
@[simp] theorem State.setSt_sp (s : State) (b : Byte) : (s.setSt b).sp = s.sp := rfl
@[simp] theorem State.setSt_dt (s : State) (b : Byte) : (s.setSt b).dt = s.dt := rfl
@[simp] theorem State.setSt_st (s : State) (b : Byte) : (s.setSt b).st = b := rfl
@[simp] theorem State.setSt_ir (s : State) (b : Byte) : (s.setSt b).ir = s.ir := rfl
@[simp] theorem State.setSt_mem (s : State) (b : Byte) : (s.setSt b).mem = s.mem := rfl
@[simp] theorem State.setSt_fb (s : State) (b : Byte) : (s.setSt b).fb = s.fb := rfl
@[simp] theorem State.setSt_fault (s : State) (b : Byte) : (s.setSt b).fault = s.fault := rfl
@[simp] theorem State.setSt_inputs (s : State) (b : Byte) : (s.setSt b).inputs = s.inputs := rfl
@[simp] theorem State.setSt_inputIndex (s : State) (b : Byte) : (s.setSt b).inputIndex = s.inputIndex := rfl

/-! ## `State.setFb` -/

@[simp] theorem State.setFb_v (s : State) (f : Framebuffer) : (s.setFb f).v = s.v := rfl
@[simp] theorem State.setFb_pc (s : State) (f : Framebuffer) : (s.setFb f).pc = s.pc := rfl
@[simp] theorem State.setFb_index (s : State) (f : Framebuffer) : (s.setFb f).index = s.index := rfl
@[simp] theorem State.setFb_stack (s : State) (f : Framebuffer) : (s.setFb f).stack = s.stack := rfl
@[simp] theorem State.setFb_sp (s : State) (f : Framebuffer) : (s.setFb f).sp = s.sp := rfl
@[simp] theorem State.setFb_dt (s : State) (f : Framebuffer) : (s.setFb f).dt = s.dt := rfl
@[simp] theorem State.setFb_st (s : State) (f : Framebuffer) : (s.setFb f).st = s.st := rfl
@[simp] theorem State.setFb_ir (s : State) (f : Framebuffer) : (s.setFb f).ir = s.ir := rfl
@[simp] theorem State.setFb_mem (s : State) (f : Framebuffer) : (s.setFb f).mem = s.mem := rfl
@[simp] theorem State.setFb_fb (s : State) (f : Framebuffer) : (s.setFb f).fb = f := rfl
@[simp] theorem State.setFb_fault (s : State) (f : Framebuffer) : (s.setFb f).fault = s.fault := rfl
@[simp] theorem State.setFb_inputs (s : State) (f : Framebuffer) : (s.setFb f).inputs = s.inputs := rfl
@[simp] theorem State.setFb_inputIndex (s : State) (f : Framebuffer) : (s.setFb f).inputIndex = s.inputIndex := rfl

/-! ## `State.store` -/

@[simp] theorem State.store_v (s : State) (a : Nat) (bs : List Byte) : (s.store a bs).v = s.v := rfl
@[simp] theorem State.store_pc (s : State) (a : Nat) (bs : List Byte) : (s.store a bs).pc = s.pc := rfl
@[simp] theorem State.store_index (s : State) (a : Nat) (bs : List Byte) : (s.store a bs).index = s.index := rfl
@[simp] theorem State.store_stack (s : State) (a : Nat) (bs : List Byte) : (s.store a bs).stack = s.stack := rfl
@[simp] theorem State.store_sp (s : State) (a : Nat) (bs : List Byte) : (s.store a bs).sp = s.sp := rfl
@[simp] theorem State.store_dt (s : State) (a : Nat) (bs : List Byte) : (s.store a bs).dt = s.dt := rfl
@[simp] theorem State.store_st (s : State) (a : Nat) (bs : List Byte) : (s.store a bs).st = s.st := rfl
@[simp] theorem State.store_ir (s : State) (a : Nat) (bs : List Byte) : (s.store a bs).ir = s.ir := rfl
@[simp] theorem State.store_mem (s : State) (a : Nat) (bs : List Byte) : (s.store a bs).mem = s.mem.writeList a bs := rfl
@[simp] theorem State.store_fb (s : State) (a : Nat) (bs : List Byte) : (s.store a bs).fb = s.fb := rfl
@[simp] theorem State.store_fault (s : State) (a : Nat) (bs : List Byte) : (s.store a bs).fault = s.fault := rfl
@[simp] theorem State.store_inputs (s : State) (a : Nat) (bs : List Byte) : (s.store a bs).inputs = s.inputs := rfl
@[simp] theorem State.store_inputIndex (s : State) (a : Nat) (bs : List Byte) : (s.store a bs).inputIndex = s.inputIndex := rfl

/-! ## `State.loadRegs` -/

@[simp] theorem State.loadRegs_v (s : State) (bs : List Byte) : (s.loadRegs bs).v = regsFromList s.v 0 bs := rfl
@[simp] theorem State.loadRegs_pc (s : State) (bs : List Byte) : (s.loadRegs bs).pc = s.pc := rfl
@[simp] theorem State.loadRegs_index (s : State) (bs : List Byte) : (s.loadRegs bs).index = s.index := rfl
@[simp] theorem State.loadRegs_stack (s : State) (bs : List Byte) : (s.loadRegs bs).stack = s.stack := rfl
@[simp] theorem State.loadRegs_sp (s : State) (bs : List Byte) : (s.loadRegs bs).sp = s.sp := rfl
@[simp] theorem State.loadRegs_dt (s : State) (bs : List Byte) : (s.loadRegs bs).dt = s.dt := rfl
@[simp] theorem State.loadRegs_st (s : State) (bs : List Byte) : (s.loadRegs bs).st = s.st := rfl
@[simp] theorem State.loadRegs_ir (s : State) (bs : List Byte) : (s.loadRegs bs).ir = s.ir := rfl
@[simp] theorem State.loadRegs_mem (s : State) (bs : List Byte) : (s.loadRegs bs).mem = s.mem := rfl
@[simp] theorem State.loadRegs_fb (s : State) (bs : List Byte) : (s.loadRegs bs).fb = s.fb := rfl
@[simp] theorem State.loadRegs_fault (s : State) (bs : List Byte) : (s.loadRegs bs).fault = s.fault := rfl
@[simp] theorem State.loadRegs_inputs (s : State) (bs : List Byte) : (s.loadRegs bs).inputs = s.inputs := rfl
@[simp] theorem State.loadRegs_inputIndex (s : State) (bs : List Byte) : (s.loadRegs bs).inputIndex = s.inputIndex := rfl

/-! ## `State.skipIf` -/

@[simp] theorem State.skipIf_v (s : State) (c : Bool) : (s.skipIf c).v = s.v := rfl
@[simp] theorem State.skipIf_pc (s : State) (c : Bool) : (s.skipIf c).pc = if c then s.pc + 2 else s.pc := rfl
@[simp] theorem State.skipIf_index (s : State) (c : Bool) : (s.skipIf c).index = s.index := rfl
@[simp] theorem State.skipIf_stack (s : State) (c : Bool) : (s.skipIf c).stack = s.stack := rfl
@[simp] theorem State.skipIf_sp (s : State) (c : Bool) : (s.skipIf c).sp = s.sp := rfl
@[simp] theorem State.skipIf_dt (s : State) (c : Bool) : (s.skipIf c).dt = s.dt := rfl
@[simp] theorem State.skipIf_st (s : State) (c : Bool) : (s.skipIf c).st = s.st := rfl
@[simp] theorem State.skipIf_ir (s : State) (c : Bool) : (s.skipIf c).ir = s.ir := rfl
@[simp] theorem State.skipIf_mem (s : State) (c : Bool) : (s.skipIf c).mem = s.mem := rfl
@[simp] theorem State.skipIf_fb (s : State) (c : Bool) : (s.skipIf c).fb = s.fb := rfl
@[simp] theorem State.skipIf_fault (s : State) (c : Bool) : (s.skipIf c).fault = s.fault := rfl
@[simp] theorem State.skipIf_inputs (s : State) (c : Bool) : (s.skipIf c).inputs = s.inputs := rfl
@[simp] theorem State.skipIf_inputIndex (s : State) (c : Bool) : (s.skipIf c).inputIndex = s.inputIndex := rfl

/-! ## `State.push` -/

@[simp] theorem State.push_v (s : State) (a : Word) : (s.push a).v = s.v := rfl
@[simp] theorem State.push_pc (s : State) (a : Word) : (s.push a).pc = s.pc := rfl
@[simp] theorem State.push_index (s : State) (a : Word) : (s.push a).index = s.index := rfl
@[simp] theorem State.push_stack (s : State) (a : Word) : (s.push a).stack = s.stack.setIfInBounds s.sp.toNat a := rfl
@[simp] theorem State.push_sp (s : State) (a : Word) : (s.push a).sp = s.sp + 1 := rfl
@[simp] theorem State.push_dt (s : State) (a : Word) : (s.push a).dt = s.dt := rfl
@[simp] theorem State.push_st (s : State) (a : Word) : (s.push a).st = s.st := rfl
@[simp] theorem State.push_ir (s : State) (a : Word) : (s.push a).ir = s.ir := rfl
@[simp] theorem State.push_mem (s : State) (a : Word) : (s.push a).mem = s.mem := rfl
@[simp] theorem State.push_fb (s : State) (a : Word) : (s.push a).fb = s.fb := rfl
@[simp] theorem State.push_fault (s : State) (a : Word) : (s.push a).fault = s.fault := rfl
@[simp] theorem State.push_inputs (s : State) (a : Word) : (s.push a).inputs = s.inputs := rfl
@[simp] theorem State.push_inputIndex (s : State) (a : Word) : (s.push a).inputIndex = s.inputIndex := rfl

/-! ## `State.popTo` -/

@[simp] theorem State.popTo_v (s : State) (a : Word) : (s.popTo a).v = s.v := rfl
@[simp] theorem State.popTo_pc (s : State) (a : Word) : (s.popTo a).pc = a := rfl
@[simp] theorem State.popTo_index (s : State) (a : Word) : (s.popTo a).index = s.index := rfl
@[simp] theorem State.popTo_stack (s : State) (a : Word) : (s.popTo a).stack = s.stack := rfl
@[simp] theorem State.popTo_sp (s : State) (a : Word) : (s.popTo a).sp = s.sp - 1 := rfl
@[simp] theorem State.popTo_dt (s : State) (a : Word) : (s.popTo a).dt = s.dt := rfl
@[simp] theorem State.popTo_st (s : State) (a : Word) : (s.popTo a).st = s.st := rfl
@[simp] theorem State.popTo_ir (s : State) (a : Word) : (s.popTo a).ir = s.ir := rfl
@[simp] theorem State.popTo_mem (s : State) (a : Word) : (s.popTo a).mem = s.mem := rfl
@[simp] theorem State.popTo_fb (s : State) (a : Word) : (s.popTo a).fb = s.fb := rfl
@[simp] theorem State.popTo_fault (s : State) (a : Word) : (s.popTo a).fault = s.fault := rfl
@[simp] theorem State.popTo_inputs (s : State) (a : Word) : (s.popTo a).inputs = s.inputs := rfl
@[simp] theorem State.popTo_inputIndex (s : State) (a : Word) : (s.popTo a).inputIndex = s.inputIndex := rfl

/-! ## `State.takeInput` -/

@[simp] theorem State.takeInput_v (s : State) : s.takeInput.v = s.v := rfl
@[simp] theorem State.takeInput_pc (s : State) : s.takeInput.pc = s.pc := rfl
@[simp] theorem State.takeInput_index (s : State) : s.takeInput.index = s.index := rfl
@[simp] theorem State.takeInput_stack (s : State) : s.takeInput.stack = s.stack := rfl
@[simp] theorem State.takeInput_sp (s : State) : s.takeInput.sp = s.sp := rfl
@[simp] theorem State.takeInput_dt (s : State) : s.takeInput.dt = s.dt := rfl
@[simp] theorem State.takeInput_st (s : State) : s.takeInput.st = s.st := rfl
@[simp] theorem State.takeInput_ir (s : State) : s.takeInput.ir = s.ir := rfl
@[simp] theorem State.takeInput_mem (s : State) : s.takeInput.mem = s.mem := rfl
@[simp] theorem State.takeInput_fb (s : State) : s.takeInput.fb = s.fb := rfl
@[simp] theorem State.takeInput_fault (s : State) : s.takeInput.fault = s.fault := rfl
@[simp] theorem State.takeInput_inputs (s : State) : s.takeInput.inputs = s.inputs.tail := rfl
@[simp] theorem State.takeInput_inputIndex (s : State) : s.takeInput.inputIndex = s.inputIndex + 1 := rfl

/-! ## `State.takeFault` -/

@[simp] theorem State.takeFault_v (s : State) (k : FaultInfo) (a : Word) (w : Option Word) : (s.takeFault k a w).v = s.v := rfl
@[simp] theorem State.takeFault_pc (s : State) (k : FaultInfo) (a : Word) (w : Option Word) : (s.takeFault k a w).pc = s.pc := rfl
@[simp] theorem State.takeFault_index (s : State) (k : FaultInfo) (a : Word) (w : Option Word) : (s.takeFault k a w).index = s.index := rfl
@[simp] theorem State.takeFault_stack (s : State) (k : FaultInfo) (a : Word) (w : Option Word) : (s.takeFault k a w).stack = s.stack := rfl
@[simp] theorem State.takeFault_sp (s : State) (k : FaultInfo) (a : Word) (w : Option Word) : (s.takeFault k a w).sp = s.sp := rfl
@[simp] theorem State.takeFault_dt (s : State) (k : FaultInfo) (a : Word) (w : Option Word) : (s.takeFault k a w).dt = s.dt := rfl
@[simp] theorem State.takeFault_st (s : State) (k : FaultInfo) (a : Word) (w : Option Word) : (s.takeFault k a w).st = s.st := rfl
@[simp] theorem State.takeFault_ir (s : State) (k : FaultInfo) (a : Word) (w : Option Word) : (s.takeFault k a w).ir = s.ir := rfl
@[simp] theorem State.takeFault_mem (s : State) (k : FaultInfo) (a : Word) (w : Option Word) : (s.takeFault k a w).mem = s.mem := rfl
@[simp] theorem State.takeFault_fb (s : State) (k : FaultInfo) (a : Word) (w : Option Word) : (s.takeFault k a w).fb = s.fb := rfl
@[simp] theorem State.takeFault_fault (s : State) (k : FaultInfo) (a : Word) (w : Option Word) : (s.takeFault k a w).fault = some ⟨k, a, w⟩ := rfl
@[simp] theorem State.takeFault_inputs (s : State) (k : FaultInfo) (a : Word) (w : Option Word) : (s.takeFault k a w).inputs = s.inputs := rfl
@[simp] theorem State.takeFault_inputIndex (s : State) (k : FaultInfo) (a : Word) (w : Option Word) : (s.takeFault k a w).inputIndex = s.inputIndex := rfl

/-! ## `State.raise` -/

@[simp] theorem State.raise_v (s : State) (k : FaultInfo) : (s.raise k).v = s.v := rfl
@[simp] theorem State.raise_pc (s : State) (k : FaultInfo) : (s.raise k).pc = s.pc := rfl
@[simp] theorem State.raise_index (s : State) (k : FaultInfo) : (s.raise k).index = s.index := rfl
@[simp] theorem State.raise_stack (s : State) (k : FaultInfo) : (s.raise k).stack = s.stack := rfl
@[simp] theorem State.raise_sp (s : State) (k : FaultInfo) : (s.raise k).sp = s.sp := rfl
@[simp] theorem State.raise_dt (s : State) (k : FaultInfo) : (s.raise k).dt = s.dt := rfl
@[simp] theorem State.raise_st (s : State) (k : FaultInfo) : (s.raise k).st = s.st := rfl
@[simp] theorem State.raise_ir (s : State) (k : FaultInfo) : (s.raise k).ir = s.ir := rfl
@[simp] theorem State.raise_mem (s : State) (k : FaultInfo) : (s.raise k).mem = s.mem := rfl
@[simp] theorem State.raise_fb (s : State) (k : FaultInfo) : (s.raise k).fb = s.fb := rfl
@[simp] theorem State.raise_fault (s : State) (k : FaultInfo) : (s.raise k).fault = some ⟨k, s.pc - 2, some s.ir⟩ := rfl
@[simp] theorem State.raise_inputs (s : State) (k : FaultInfo) : (s.raise k).inputs = s.inputs := rfl
@[simp] theorem State.raise_inputIndex (s : State) (k : FaultInfo) : (s.raise k).inputIndex = s.inputIndex := rfl

/-! ## `State.raiseFetch` -/

@[simp] theorem State.raiseFetch_v (s : State) (a : Nat) : (s.raiseFetch a).v = s.v := rfl
@[simp] theorem State.raiseFetch_pc (s : State) (a : Nat) : (s.raiseFetch a).pc = s.pc := rfl
@[simp] theorem State.raiseFetch_index (s : State) (a : Nat) : (s.raiseFetch a).index = s.index := rfl
@[simp] theorem State.raiseFetch_stack (s : State) (a : Nat) : (s.raiseFetch a).stack = s.stack := rfl
@[simp] theorem State.raiseFetch_sp (s : State) (a : Nat) : (s.raiseFetch a).sp = s.sp := rfl
@[simp] theorem State.raiseFetch_dt (s : State) (a : Nat) : (s.raiseFetch a).dt = s.dt := rfl
@[simp] theorem State.raiseFetch_st (s : State) (a : Nat) : (s.raiseFetch a).st = s.st := rfl
@[simp] theorem State.raiseFetch_ir (s : State) (a : Nat) : (s.raiseFetch a).ir = s.ir := rfl
@[simp] theorem State.raiseFetch_mem (s : State) (a : Nat) : (s.raiseFetch a).mem = s.mem := rfl
@[simp] theorem State.raiseFetch_fb (s : State) (a : Nat) : (s.raiseFetch a).fb = s.fb := rfl
@[simp] theorem State.raiseFetch_fault (s : State) (a : Nat) : (s.raiseFetch a).fault = some ⟨.memoryOutOfBounds .fetch a, s.pc, none⟩ := rfl
@[simp] theorem State.raiseFetch_inputs (s : State) (a : Nat) : (s.raiseFetch a).inputs = s.inputs := rfl
@[simp] theorem State.raiseFetch_inputIndex (s : State) (a : Nat) : (s.raiseFetch a).inputIndex = s.inputIndex := rfl

/-! ## `State.advance` -/

@[simp] theorem State.advance_v (s : State) (w : Word) : (s.advance w).v = s.v := rfl
@[simp] theorem State.advance_pc (s : State) (w : Word) : (s.advance w).pc = s.pc + 2 := rfl
@[simp] theorem State.advance_index (s : State) (w : Word) : (s.advance w).index = s.index := rfl
@[simp] theorem State.advance_stack (s : State) (w : Word) : (s.advance w).stack = s.stack := rfl
@[simp] theorem State.advance_sp (s : State) (w : Word) : (s.advance w).sp = s.sp := rfl
@[simp] theorem State.advance_dt (s : State) (w : Word) : (s.advance w).dt = s.dt := rfl
@[simp] theorem State.advance_st (s : State) (w : Word) : (s.advance w).st = s.st := rfl
@[simp] theorem State.advance_ir (s : State) (w : Word) : (s.advance w).ir = w := rfl
@[simp] theorem State.advance_mem (s : State) (w : Word) : (s.advance w).mem = s.mem := rfl
@[simp] theorem State.advance_fb (s : State) (w : Word) : (s.advance w).fb = s.fb := rfl
@[simp] theorem State.advance_fault (s : State) (w : Word) : (s.advance w).fault = s.fault := rfl
@[simp] theorem State.advance_inputs (s : State) (w : Word) : (s.advance w).inputs = s.inputs := rfl
@[simp] theorem State.advance_inputIndex (s : State) (w : Word) : (s.advance w).inputIndex = s.inputIndex := rfl

/-! ## `State.tick` -/

@[simp] theorem State.tick_v (s : State) : s.tick.v = s.v := rfl
@[simp] theorem State.tick_pc (s : State) : s.tick.pc = s.pc := rfl
@[simp] theorem State.tick_index (s : State) : s.tick.index = s.index := rfl
@[simp] theorem State.tick_stack (s : State) : s.tick.stack = s.stack := rfl
@[simp] theorem State.tick_sp (s : State) : s.tick.sp = s.sp := rfl
@[simp] theorem State.tick_dt (s : State) : s.tick.dt = tickByte s.dt := rfl
@[simp] theorem State.tick_st (s : State) : s.tick.st = tickByte s.st := rfl
@[simp] theorem State.tick_ir (s : State) : s.tick.ir = s.ir := rfl
@[simp] theorem State.tick_mem (s : State) : s.tick.mem = s.mem := rfl
@[simp] theorem State.tick_fb (s : State) : s.tick.fb = s.fb := rfl
@[simp] theorem State.tick_fault (s : State) : s.tick.fault = s.fault := rfl
@[simp] theorem State.tick_inputs (s : State) : s.tick.inputs = s.inputs := rfl
@[simp] theorem State.tick_inputIndex (s : State) : s.tick.inputIndex = s.inputIndex := rfl

/-! ## `State.setFlagThenReg` -/

@[simp] theorem State.setFlagThenReg_v (s : State) (c : Bool) (x : Reg) (b : Byte) : (s.setFlagThenReg c x b).v = (s.v.set VF.val (flagByte c)).set x.val b := rfl
@[simp] theorem State.setFlagThenReg_pc (s : State) (c : Bool) (x : Reg) (b : Byte) : (s.setFlagThenReg c x b).pc = s.pc := rfl
@[simp] theorem State.setFlagThenReg_index (s : State) (c : Bool) (x : Reg) (b : Byte) : (s.setFlagThenReg c x b).index = s.index := rfl
@[simp] theorem State.setFlagThenReg_stack (s : State) (c : Bool) (x : Reg) (b : Byte) : (s.setFlagThenReg c x b).stack = s.stack := rfl
@[simp] theorem State.setFlagThenReg_sp (s : State) (c : Bool) (x : Reg) (b : Byte) : (s.setFlagThenReg c x b).sp = s.sp := rfl
@[simp] theorem State.setFlagThenReg_dt (s : State) (c : Bool) (x : Reg) (b : Byte) : (s.setFlagThenReg c x b).dt = s.dt := rfl
@[simp] theorem State.setFlagThenReg_st (s : State) (c : Bool) (x : Reg) (b : Byte) : (s.setFlagThenReg c x b).st = s.st := rfl
@[simp] theorem State.setFlagThenReg_ir (s : State) (c : Bool) (x : Reg) (b : Byte) : (s.setFlagThenReg c x b).ir = s.ir := rfl
@[simp] theorem State.setFlagThenReg_mem (s : State) (c : Bool) (x : Reg) (b : Byte) : (s.setFlagThenReg c x b).mem = s.mem := rfl
@[simp] theorem State.setFlagThenReg_fb (s : State) (c : Bool) (x : Reg) (b : Byte) : (s.setFlagThenReg c x b).fb = s.fb := rfl
@[simp] theorem State.setFlagThenReg_fault (s : State) (c : Bool) (x : Reg) (b : Byte) : (s.setFlagThenReg c x b).fault = s.fault := rfl
@[simp] theorem State.setFlagThenReg_inputs (s : State) (c : Bool) (x : Reg) (b : Byte) : (s.setFlagThenReg c x b).inputs = s.inputs := rfl
@[simp] theorem State.setFlagThenReg_inputIndex (s : State) (c : Bool) (x : Reg) (b : Byte) : (s.setFlagThenReg c x b).inputIndex = s.inputIndex := rfl

/-! ## Reading registers -/

theorem State.reg_eq (s : State) (x : Reg) : s.reg x = s.v[x.val] := rfl

/-- Writing a register and reading it, or another. -/
theorem State.reg_setReg (s : State) (x y : Reg) (b : Byte) :
    (s.setReg x b).reg y = if x = y then b else s.reg y := by
  simp only [State.reg, State.setReg, Vector.getElem_set, Fin.ext_iff]

@[simp] theorem State.reg_setReg_self (s : State) (x : Reg) (b : Byte) : (s.setReg x b).reg x = b := by
  simp [State.reg_setReg]

theorem State.reg_setReg_of_ne (s : State) {x y : Reg} (b : Byte) (h : y ≠ x) :
    (s.setReg x b).reg y = s.reg y := by
  simp [State.reg_setReg, Ne.symm h]

/-- The flag is written first and the result second, so with `x = VF` the result is read back. -/
theorem State.reg_setFlagThenReg (s : State) (c : Bool) (x y : Reg) (b : Byte) :
    (s.setFlagThenReg c x b).reg y = if x = y then b else if VF = y then flagByte c else s.reg y := by
  simp only [State.setFlagThenReg, State.reg_setReg]

@[simp] theorem State.reg_loadRegs (s : State) (bs : List Byte) (y : Reg) :
    (s.loadRegs bs).reg y = (regsFromList s.v 0 bs)[y.val] := rfl

@[simp] theorem State.reg_setPc (s : State) (a : Word) (y : Reg) : (s.setPc a).reg y = s.reg y := rfl
@[simp] theorem State.reg_setIndex (s : State) (a : Word) (y : Reg) : (s.setIndex a).reg y = s.reg y := rfl
@[simp] theorem State.reg_setDt (s : State) (b : Byte) (y : Reg) : (s.setDt b).reg y = s.reg y := rfl
@[simp] theorem State.reg_setSt (s : State) (b : Byte) (y : Reg) : (s.setSt b).reg y = s.reg y := rfl
@[simp] theorem State.reg_setFb (s : State) (f : Framebuffer) (y : Reg) : (s.setFb f).reg y = s.reg y := rfl
@[simp] theorem State.reg_store (s : State) (a : Nat) (bs : List Byte) (y : Reg) : (s.store a bs).reg y = s.reg y := rfl
@[simp] theorem State.reg_skipIf (s : State) (c : Bool) (y : Reg) : (s.skipIf c).reg y = s.reg y := rfl
@[simp] theorem State.reg_push (s : State) (a : Word) (y : Reg) : (s.push a).reg y = s.reg y := rfl
@[simp] theorem State.reg_popTo (s : State) (a : Word) (y : Reg) : (s.popTo a).reg y = s.reg y := rfl
@[simp] theorem State.reg_takeInput (s : State) (y : Reg) : s.takeInput.reg y = s.reg y := rfl
@[simp] theorem State.reg_takeFault (s : State) (k : FaultInfo) (a : Word) (w : Option Word) (y : Reg) : (s.takeFault k a w).reg y = s.reg y := rfl
@[simp] theorem State.reg_raise (s : State) (k : FaultInfo) (y : Reg) : (s.raise k).reg y = s.reg y := rfl
@[simp] theorem State.reg_raiseFetch (s : State) (a : Nat) (y : Reg) : (s.raiseFetch a).reg y = s.reg y := rfl
@[simp] theorem State.reg_advance (s : State) (w : Word) (y : Reg) : (s.advance w).reg y = s.reg y := rfl
@[simp] theorem State.reg_tick (s : State) (y : Reg) : s.tick.reg y = s.reg y := rfl

/-! ## Reading the cycle's input -/

@[simp] theorem State.input_setReg (s : State) (x : Reg) (b : Byte) : (s.setReg x b).input = s.input := rfl
@[simp] theorem State.input_setPc (s : State) (a : Word) : (s.setPc a).input = s.input := rfl
@[simp] theorem State.input_setIndex (s : State) (a : Word) : (s.setIndex a).input = s.input := rfl
@[simp] theorem State.input_setDt (s : State) (b : Byte) : (s.setDt b).input = s.input := rfl
@[simp] theorem State.input_setSt (s : State) (b : Byte) : (s.setSt b).input = s.input := rfl
@[simp] theorem State.input_setFb (s : State) (f : Framebuffer) : (s.setFb f).input = s.input := rfl
@[simp] theorem State.input_store (s : State) (a : Nat) (bs : List Byte) : (s.store a bs).input = s.input := rfl
@[simp] theorem State.input_loadRegs (s : State) (bs : List Byte) : (s.loadRegs bs).input = s.input := rfl
@[simp] theorem State.input_skipIf (s : State) (c : Bool) : (s.skipIf c).input = s.input := rfl
@[simp] theorem State.input_push (s : State) (a : Word) : (s.push a).input = s.input := rfl
@[simp] theorem State.input_popTo (s : State) (a : Word) : (s.popTo a).input = s.input := rfl
@[simp] theorem State.input_takeFault (s : State) (k : FaultInfo) (a : Word) (w : Option Word) : (s.takeFault k a w).input = s.input := rfl
@[simp] theorem State.input_raise (s : State) (k : FaultInfo) : (s.raise k).input = s.input := rfl
@[simp] theorem State.input_raiseFetch (s : State) (a : Nat) : (s.raiseFetch a).input = s.input := rfl
@[simp] theorem State.input_advance (s : State) (w : Word) : (s.advance w).input = s.input := rfl
@[simp] theorem State.input_tick (s : State) : s.tick.input = s.input := rfl
@[simp] theorem State.input_setFlagThenReg (s : State) (c : Bool) (x : Reg) (b : Byte) : (s.setFlagThenReg c x b).input = s.input := rfl

@[simp] theorem State.input_supply (s : State) (k : Keys) (r : Byte) : (s.supply k r).input = ⟨k, r⟩ := rfl

end Sys2Proof.Machine
end

