-- ==== Sys2Proof/Laws/Display.lean ====
section
/-! SUPPORT. The framebuffer's laws and the closed form of a drawing: a cell is toggled exactly when the sprite has a
pixel over it, and there is a collision exactly when one of those cells was on. -/

namespace Sys2Proof.Machine

/-- The column of a sprite that lies over screen column `cx` when its column 0 is at `px`. 44_display R192. -/
def spriteCol (px : Nat) (cx : Fin 64) : Nat := (cx.val + 64 - px % 64) % 64

/-- The row of a sprite that lies over screen row `cy` when its row 0 is at `py`. 44_display R192. -/
def spriteRow (py : Nat) (cy : Fin 32) : Nat := (cy.val + 32 - py % 32) % 32

/-- Does a sprite row byte at column `px` have a pixel over screen column `cx`? Bit 7 is column 0. 44_display R192. -/
def rowPixel (px : Nat) (b : Byte) (cx : Fin 64) : Bool :=
  decide (spriteCol px cx < 8) && b.getLsbD (7 - spriteCol px cx)

/-- Does the sprite `DRW Vx,Vy,N` draws have a pixel over a screen cell? 44_display R192. -/
def State.spritePixel (s : State) (x y : Reg) (n : Fin 16) (cy : Fin 32) (cx : Fin 64) : Bool :=
  decide (spriteRow (s.reg y).toNat cy < n.val) &&
    rowPixel (s.reg x).toNat (s.mem.read (s.base + spriteRow (s.reg y).toNat cy)) cx

/-! ## Cells -/

theorem Framebuffer.cell_setCell (f : Framebuffer) (y y' : Fin 32) (x x' : Fin 64) (b : Bool) :
    (f.setCell y x b).cell y' x' = if y = y' ∧ x = x' then b else f.cell y' x' := by
  simp only [Framebuffer.cell, Framebuffer.setCell, Vector.getElem_set, Fin.ext_iff]
  by_cases hy : y.val = y'.val
  · simp [hy, Vector.getElem_set]
  · simp [hy]

@[simp] theorem Framebuffer.cell_clear (y : Fin 32) (x : Fin 64) : Framebuffer.clear.cell y x = false := by
  simp [Framebuffer.cell, Framebuffer.clear]

/-- Framebuffers with the same cells are the same. -/
theorem Framebuffer.ext {f g : Framebuffer} (h : ∀ y x, f.cell y x = g.cell y x) : f = g := by
  refine Vector.ext fun i hi => Vector.ext fun j hj => ?_
  exact h ⟨i, hi⟩ ⟨j, hj⟩

/-! ## Wrapping -/

theorem wrapCol_eq_iff (px k : Nat) (hk : k < 64) (cx : Fin 64) :
    wrapCol (px + k) = cx ↔ spriteCol px cx = k := by
  simp only [wrapCol, spriteCol, Fin.ext_iff, Fin.val_ofNat]
  omega

theorem wrapRow_eq_iff (py k : Nat) (hk : k < 32) (cy : Fin 32) :
    wrapRow (py + k) = cy ↔ spriteRow py cy = k := by
  simp only [wrapRow, spriteRow, Fin.ext_iff, Fin.val_ofNat]
  omega

/-! ## One pixel -/

theorem Drawing.cell_pixel (d : Drawing) (cy y : Fin 32) (cx x : Fin 64) (bit : Bool) :
    (d.pixel cy cx bit).fb.cell y x = (d.fb.cell y x ^^ (bit && decide (cy = y) && decide (cx = x))) := by
  cases bit with
  | false => simp [Drawing.pixel]
  | true =>
    simp only [Drawing.pixel, if_true, Framebuffer.cell_setCell]
    by_cases hy : cy = y
    · by_cases hx : cx = x
      · subst hy; subst hx; simp
      · simp [hx]
    · simp [hy]

theorem Drawing.hit_pixel (d : Drawing) (cy : Fin 32) (cx : Fin 64) (bit : Bool) :
    (d.pixel cy cx bit).hit = (d.hit || (bit && d.fb.cell cy cx)) := by
  cases bit <;> simp [Drawing.pixel]

/-! ## One row -/

/-- The pixels of some columns of a sprite row. -/
def colsPixel (px : Nat) (b : Byte) (cols : List Nat) (cx : Fin 64) : Bool :=
  decide (spriteCol px cx ∈ cols) && b.getLsbD (7 - spriteCol px cx)

theorem Drawing.foldl_cols (cy : Fin 32) (px : Nat) (b : Byte) : ∀ (cols : List Nat) (d : Drawing),
    cols.Nodup → (∀ k ∈ cols, k < 64) →
    let e := cols.foldl (fun d col => d.pixel cy (wrapCol (px + col)) (b.getLsbD (7 - col))) d
    (∀ y x, e.fb.cell y x = (d.fb.cell y x ^^ (decide (cy = y) && colsPixel px b cols x))) ∧
    (e.hit = true ↔ d.hit = true ∨ ∃ x, colsPixel px b cols x = true ∧ d.fb.cell cy x = true) := by
  intro cols
  induction cols with
  | nil => intro d _ _; simp [colsPixel]
  | cons k cols ih =>
    intro d hn hlt
    have hk : k < 64 := hlt k (List.mem_cons_self ..)
    obtain ⟨hkn, hn⟩ := List.nodup_cons.1 hn
    obtain ⟨hc, hh⟩ := ih (d.pixel cy (wrapCol (px + k)) (b.getLsbD (7 - k))) hn
      fun j hj => hlt j (List.mem_cons_of_mem _ hj)
    simp only [List.foldl_cons]
    refine ⟨fun y x => ?_, ?_⟩
    · rw [hc, Drawing.cell_pixel]
      simp only [wrapCol_eq_iff px k hk, colsPixel, List.mem_cons]
      by_cases hy : cy = y <;> by_cases hx : spriteCol px x = k
      · subst hx; simp [hy, hkn]
      · simp [hy, hx]
      · simp [hy]
      · simp [hy]
    · rw [hh, Drawing.hit_pixel]
      simp only [Drawing.cell_pixel, Bool.or_eq_true, Bool.and_eq_true, wrapCol_eq_iff px k hk]
      constructor
      · rintro ((h | ⟨hb, hcell⟩) | ⟨x, hp, hcell⟩)
        · exact .inl h
        · refine .inr ⟨wrapCol (px + k), ?_, hcell⟩
          have hs := (wrapCol_eq_iff px k hk _).1 rfl
          simp [colsPixel, hs, hb]
        · have hm : spriteCol px x ∈ cols := by simp [colsPixel] at hp; exact hp.1
          have hne : spriteCol px x ≠ k := fun e => hkn (e ▸ hm)
          refine .inr ⟨x, ?_, by simpa [hne] using hcell⟩
          simp [colsPixel] at hp ⊢
          exact ⟨.inr hp.1, hp.2⟩
      · rintro (h | ⟨x, hp, hcell⟩)
        · exact .inl (.inl h)
        · simp only [colsPixel, List.mem_cons, Bool.and_eq_true, decide_eq_true_eq] at hp
          by_cases hx : spriteCol px x = k
          · have hw := (wrapCol_eq_iff px k hk x).2 hx
            exact .inl (.inr ⟨hx ▸ hp.2, hw ▸ hcell⟩)
          · refine .inr ⟨x, ?_, by simp [hx, hcell]⟩
            simp [colsPixel, hp.1.resolve_left hx, hp.2]

theorem colsPixel_eq_rowPixel (px : Nat) (b : Byte) (cx : Fin 64) :
    colsPixel px b [0, 1, 2, 3, 4, 5, 6, 7] cx = rowPixel px b cx := by
  have h : spriteCol px cx ∈ [0, 1, 2, 3, 4, 5, 6, 7] ↔ spriteCol px cx < 8 := by
    simp only [List.mem_cons, List.not_mem_nil, or_false]; omega
  simp [colsPixel, rowPixel, h]

/-- A drawn row toggles exactly the cells its pixels lie over. -/
theorem Drawing.cell_row (d : Drawing) (cy y : Fin 32) (px : Nat) (b : Byte) (x : Fin 64) :
    (d.row cy px b).fb.cell y x = (d.fb.cell y x ^^ (decide (cy = y) && rowPixel px b x)) := by
  have h := (Drawing.foldl_cols cy px b [0, 1, 2, 3, 4, 5, 6, 7] d (by decide) (by decide)).1 y x
  rwa [colsPixel_eq_rowPixel] at h

/-- A drawn row collides exactly when one of its pixels lies over a cell that was on. -/
theorem Drawing.hit_row (d : Drawing) (cy : Fin 32) (px : Nat) (b : Byte) :
    (d.row cy px b).hit = true ↔ d.hit = true ∨ ∃ x, rowPixel px b x = true ∧ d.fb.cell cy x = true := by
  have h := (Drawing.foldl_cols cy px b [0, 1, 2, 3, 4, 5, 6, 7] d (by decide) (by decide)).2
  simp only [colsPixel_eq_rowPixel] at h
  exact h

/-! ## A sprite -/

/-- The pixels of sprite rows `k`, `k + 1`, … given as bytes, for a sprite whose row 0 is at `py`. -/
def rowsPixel (py px k : Nat) (bs : List Byte) (cy : Fin 32) (cx : Fin 64) : Bool :=
  decide (k ≤ spriteRow py cy) && (bs[spriteRow py cy - k]?).any (fun b => rowPixel px b cx)

theorem Drawing.rows_spec (py px : Nat) : ∀ (bs : List Byte) (k : Nat) (d : Drawing), k + bs.length ≤ 32 →
    let e := d.rows (py + k) px bs
    (∀ y x, e.fb.cell y x = (d.fb.cell y x ^^ rowsPixel py px k bs y x)) ∧
    (e.hit = true ↔ d.hit = true ∨ ∃ y x, rowsPixel py px k bs y x = true ∧ d.fb.cell y x = true) := by
  intro bs
  induction bs with
  | nil => intro k d _; simp [Drawing.rows, rowsPixel]
  | cons b bs ih =>
    intro k d hlen
    rw [List.length_cons] at hlen
    obtain ⟨hc, hh⟩ := ih (k + 1) (d.row (wrapRow (py + k)) px b) (by omega)
    have hwrap := fun cy => wrapRow_eq_iff py k (by omega) cy
    -- the first row and the later rows never meet
    have hcons : ∀ y x, rowsPixel py px k (b :: bs) y x =
        ((decide (spriteRow py y = k) && rowPixel px b x) || rowsPixel py px (k + 1) bs y x) := by
      intro y x
      rcases Nat.lt_trichotomy (spriteRow py y) k with h | h | h
      · simp [rowsPixel, show ¬ k ≤ spriteRow py y by omega, show ¬ k + 1 ≤ spriteRow py y by omega,
          show spriteRow py y ≠ k by omega]
      · simp [rowsPixel, h]
      · obtain ⟨j, hj⟩ : ∃ j, spriteRow py y = k + 1 + j := ⟨spriteRow py y - (k + 1), by omega⟩
        simp [rowsPixel, hj, show k ≤ k + 1 + j by omega, show k + 1 + j - k = j + 1 by omega,
          show k + 1 + j ≠ k by omega]
    have hapart : ∀ y x, spriteRow py y = k → rowsPixel py px (k + 1) bs y x = false := by
      intro y x h
      simp [rowsPixel, show ¬ k + 1 ≤ spriteRow py y by omega]
    rw [show d.rows (py + k) px (b :: bs) = (d.row (wrapRow (py + k)) px b).rows (py + (k + 1)) px bs from rfl]
    refine ⟨fun y x => ?_, ?_⟩
    · rw [hc, Drawing.cell_row, hcons]
      simp only [hwrap]
      by_cases hy : spriteRow py y = k
      · simp [hy, hapart y x hy]
      · simp [hy]
    · rw [hh, Drawing.hit_row]
      simp only [Drawing.cell_row, hwrap, hcons, Bool.or_eq_true, Bool.and_eq_true, decide_eq_true_eq]
      constructor
      · rintro ((h | ⟨x, hp, hcell⟩) | ⟨y, x, hp, hcell⟩)
        · exact .inl h
        · exact .inr ⟨_, x, .inl ⟨(hwrap _).1 rfl, hp⟩, hcell⟩
        · have hy : spriteRow py y ≠ k := fun e => by simp [hapart y x e] at hp
          exact .inr ⟨y, x, .inr hp, by simpa [hy] using hcell⟩
      · rintro (h | ⟨y, x, ⟨hy, hp⟩ | hp, hcell⟩)
        · exact .inl (.inl h)
        · exact .inl (.inr ⟨x, hp, (hwrap y).2 hy ▸ hcell⟩)
        · have hy : spriteRow py y ≠ k := fun e => by simp [hapart y x e] at hp
          exact .inr ⟨y, x, hp, by simp [hy, hcell]⟩

/-- The pixels of the sprite a `DRW` reads are those of `State.spritePixel`. -/
theorem rowsPixel_readList (s : State) (x y : Reg) (n : Fin 16) (cy : Fin 32) (cx : Fin 64) :
    rowsPixel (s.reg y).toNat (s.reg x).toNat 0 (s.mem.readList s.base n.val) cy cx =
      s.spritePixel x y n cy cx := by
  simp only [rowsPixel, State.spritePixel, Memory.getElem?_readList, Nat.zero_le, decide_true, Bool.true_and,
    Nat.sub_zero]
  by_cases h : spriteRow (s.reg y).toNat cy < n.val <;> simp [h]

end Sys2Proof.Machine
end

