-- ==== Sys2Proof/Laws/Machine.lean ====
section
/-! SUPPORT. What each shared operation can do, said once: fetch, end of a cycle, ticks, stack, block transfers,
digits, keys; and what a step can do. -/

namespace Sys2Proof.Machine

/-! ## Words and flags -/

@[simp] theorem toNat_wordOfBytes (hi lo : Byte) :
    (wordOfBytes hi lo).toNat = 256 * hi.toNat + lo.toNat := by
  have h : (wordOfBytes hi lo).toNat = hi.toNat <<< 8 ||| lo.toNat := BitVec.toNat_append ..
  rw [h, Nat.shiftLeft_eq, Nat.mul_comm, show (2 ^ 8 : Nat) = 256 from rfl,
    ← Nat.two_pow_add_eq_or_of_lt (i := 8) (b := lo.toNat) lo.isLt hi.toNat]

/-- A timer's tick on numbers: down by one, never below 0. 40_cycle R108. -/
@[simp] theorem toNat_tickByte (b : Byte) : (tickByte b).toNat = b.toNat - 1 := by
  unfold tickByte
  split
  · have := b.isLt
    have h1 : (1 : Byte).toNat = 1 := rfl
    simp only [BitVec.toNat_sub, h1]; omega
  · omega

@[simp] theorem toNat_flagByte (c : Bool) : (flagByte c).toNat = if c then 1 else 0 := by cases c <;> rfl

@[simp] theorem toNat_addrImm (nnn : Addr12) : (addrImm nnn).toNat = nnn.toNat := by
  have := nnn.isLt; simp [addrImm]; omega

@[simp] theorem toNat_byteAddend (b : Byte) : (byteAddend b).toNat = b.toNat := by
  have := b.isLt; simp [byteAddend]; omega

@[simp] theorem toNat_glyphAddr (b : Byte) : (glyphAddr b).toNat = 0x50 + 5 * b.toNat := by
  have := b.isLt
  simp only [glyphAddr, BitVec.toNat_ofNat, Config.fontBase, Config.glyphBytes]
  omega

/-- The decimal digits of a byte, as numbers. 43_index_memory R174. -/
theorem toNat_decimalDigits (b : Byte) :
    (decimalDigits b).map BitVec.toNat = [b.toNat / 100, b.toNat / 10 % 10, b.toNat % 10] := by
  have := b.isLt
  simp only [decimalDigits, List.map_cons, List.map_nil, BitVec.toNat_ofNat, List.cons.injEq, and_true]
  omega

/-! ## Block transfers -/

@[simp] theorem State.length_regsUpTo (s : State) (x : Reg) : (s.regsUpTo x).length = x.val + 1 := by
  have := x.isLt
  simp only [State.regsUpTo, List.length_take, Vector.length_toList]
  omega

/-- Byte `k` of what `LD [I],Vx` stores is `V[k]`. 43_index_memory R175. -/
theorem State.getElem?_regsUpTo (s : State) (x k : Reg) (h : k ≤ x) :
    (s.regsUpTo x)[k.val]? = some (s.reg k) := by
  have hk : k.val < x.val + 1 := by have := Fin.le_def.1 h; omega
  simp [State.regsUpTo, hk, State.reg]

/-- Register `k` after loading bytes from register `j` on. 43_index_memory R176. -/
theorem getElem_regsFromList : ∀ (bs : List Byte) (v : Vector Byte 16) (j k : Nat) (hk : k < 16),
    (regsFromList v j bs)[k] = if j ≤ k then (bs[k - j]?).getD v[k] else v[k]
  | [], v, j, k, hk => by simp [regsFromList]
  | b :: bs, v, j, k, hk => by
    rw [regsFromList, getElem_regsFromList bs _ (j + 1) k hk]
    rcases Nat.lt_trichotomy k j with h | h | h
    · simp [show ¬ j + 1 ≤ k by omega, show ¬ j ≤ k by omega, show j ≠ k by omega]
    · subst h
      simp
    · obtain ⟨d, rfl⟩ : ∃ d, k = j + 1 + d := ⟨k - (j + 1), by omega⟩
      simp [show j ≤ j + 1 + d by omega, show j + 1 + d - j = d + 1 by omega, show j ≠ j + 1 + d by omega]

/-! ## Keys -/

/-- A key number above 15 names no key. 45_keypad_timers R201. -/
theorem keyPressed_eq_none {keys : Keys} {k : Byte} : keyPressed keys k = none ↔ 15 < k.toNat := by
  simp only [keyPressed, Vector.getElem?_eq_none_iff]; omega

theorem keyPressed_eq_some {keys : Keys} {k : Byte} {b : Bool} :
    keyPressed keys k = some b ↔ ∃ h : k.toNat < 16, keys[k.toNat] = b := by
  simp [keyPressed, Vector.getElem?_eq_some_iff]

theorem mem_allKeys (k : Fin 16) : k ∈ allKeys := by decide +revert

theorem allKeys_sorted : allKeys.Pairwise (· < ·) := by decide

/-- The scan finds nothing exactly when no key is pressed. 45_keypad_timers R203. -/
theorem leastKey_eq_none {keys : Keys} : leastKey keys = none ↔ ∀ k : Fin 16, keys[k.val] = false := by
  simp only [leastKey, List.find?_eq_none, Bool.not_eq_true]
  exact ⟨fun h k => h k (mem_allKeys k), fun h k _ => h k⟩

theorem find?_sorted_least {p : Fin 16 → Bool} {k : Fin 16} : ∀ {l : List (Fin 16)},
    l.Pairwise (· < ·) → l.find? p = some k → p k = true ∧ ∀ j ∈ l, j < k → p j = false
  | [], _, h => by simp at h
  | i :: l, hs, h => by
    obtain ⟨hi, hs⟩ := List.pairwise_cons.1 hs
    rw [List.find?_cons] at h
    split at h
    · rename_i hp
      obtain rfl := Option.some.inj h
      refine ⟨hp, fun j hj hjk => ?_⟩
      rcases List.mem_cons.1 hj with rfl | hj
      · exact absurd hjk (lt_irrefl _)
      · exact absurd (hi j hj) (lt_asymm hjk)
    · rename_i hp
      obtain ⟨h1, h2⟩ := find?_sorted_least hs h
      refine ⟨h1, fun j hj hjk => ?_⟩
      rcases List.mem_cons.1 hj with rfl | hj
      · simpa using hp
      · exact h2 j hj hjk

/-- The scan finds the least pressed key. 45_keypad_timers R203. -/
theorem leastKey_eq_some {keys : Keys} {k : Fin 16} :
    leastKey keys = some k ↔ keys[k.val] = true ∧ ∀ j : Fin 16, j < k → keys[j.val] = false := by
  constructor
  · intro h
    obtain ⟨h1, h2⟩ := find?_sorted_least allKeys_sorted h
    exact ⟨h1, fun j hj => h2 j (mem_allKeys j) hj⟩
  · rintro ⟨h1, h2⟩
    cases hf : leastKey keys with
    | none => rw [leastKey_eq_none] at hf; simp [hf k] at h1
    | some i =>
      obtain ⟨g1, g2⟩ := find?_sorted_least allKeys_sorted hf
      rcases lt_trichotomy i k with h | h | h
      · simp [h2 i h] at g1
      · rw [h]
      · have := g2 k (mem_allKeys k) h; simp [this] at h1

/-! ## Fetch and the end of a cycle -/

/-- The fetch succeeds exactly when `PC` is at most 0xFFE, and then gives the two bytes at `PC`. 40_cycle R101. -/
theorem State.fetch_eq_ok {s : State} {w : Word} :
    s.fetch = .ok w ↔ s.pc.toNat ≤ 0xFFE ∧
      w = wordOfBytes (s.mem.read s.pc.toNat) (s.mem.read (s.pc.toNat + 1)) := by
  unfold State.fetch
  split
  · rename_i a h
    rw [outOfBounds_eq_some] at h
    simp only [reduceCtorEq, false_iff]; omega
  · rename_i h
    rw [outOfBounds_eq_none] at h
    simp only [Except.ok.injEq, eq_comm, iff_and_self]
    omega

/-- It fails with the lowest of `PC`, `PC + 1` that exceeds 0xFFF. 40_cycle R101. -/
theorem State.fetch_eq_error {s : State} {a : Nat} :
    s.fetch = .error a ↔ 0xFFE < s.pc.toNat ∧ a = max s.pc.toNat 0x1000 := by
  unfold State.fetch
  split
  · rename_i b h
    rw [outOfBounds_eq_some] at h
    simp only [Except.error.injEq]; omega
  · rename_i h
    rw [outOfBounds_eq_none] at h
    simp only [reduceCtorEq, false_iff]; omega

/-- The word at `PC` is what the fetch gives. -/
theorem State.At.fetch {s : State} {w : Word} (h : s.At w) : s.fetch = .ok w := by
  rw [State.fetch_eq_ok, h.high, h.low]
  exact ⟨h.pc_le, (wordOfBytes_extract w).symm⟩

/-- What the fetch gives a running core is the word at `PC`. -/
theorem State.At.of_fetch {s : State} {w : Word} (hr : s.running) (h : s.fetch = .ok w) : s.At w := by
  obtain ⟨hpc, rfl⟩ := State.fetch_eq_ok.1 h
  refine ⟨hr, hpc, ?_, ?_⟩ <;> refine BitVec.eq_of_getLsbD_eq fun i hi => ?_
  · simp [getLsbD_wordOfBytes, hi, show ¬ 8 + i < 8 by omega]
  · simp [getLsbD_wordOfBytes, hi]

theorem State.endCycle_running {before after : State} (h : after.running) :
    before.endCycle after = after.tick.takeInput := by
  simp only [State.running] at h; simp [State.endCycle, h]

theorem State.endCycle_fault {before after : State} {r : FaultRecord} (h : after.fault = some r) :
    before.endCycle after = { before with fault := some r } := by
  simp [State.endCycle, h]

/-- A halted core's step. 40_cycle R107. -/
theorem step_of_halted {s : State} (h : s.halted) : step s = .next s := by
  unfold step cycle
  cases hf : s.fault with
  | none => exact absurd hf h
  | some r => rfl

/-- A running core's step whose fetch fails. 40_cycle R101. -/
theorem step_of_fetch_error {s : State} {a : Nat} (hr : s.running) (h : s.fetch = .error a) :
    step s = .next (s.raiseFetch a) := by
  simp only [State.running] at hr; simp [step, cycle, hr, runCycle, h]

/-- A running core's step on a fetched word. 40_cycle R100. -/
theorem step_of_at {s : State} {w : Word} (h : s.At w) :
    step s = closeCycle s (execWord w (s.advance w)) := by
  have hr := h.running
  simp only [State.running] at hr; simp [step, cycle, hr, runCycle, h.fetch]

/-- What a step that answers a next state can have done: nothing (halted), a fetch fault, a no-op cycle, or the
decoded instruction's cycle. -/
theorem step_next_cases {s t : State} (h : step s = .next t) :
    (s.halted ∧ t = s) ∨
    (s.running ∧ 0xFFE < s.pc.toNat ∧ t = s.raiseFetch (max s.pc.toNat 0x1000)) ∨
    (∃ w e, s.At w ∧ decodeWord w = .error e ∧ t = (s.advance w).tick.takeInput) ∨
    (∃ w i u, s.At w ∧ decodeWord w = .ok i ∧ exec i (s.advance w) = .next u ∧ t = s.endCycle u) := by
  by_cases hr : s.running
  · refine .inr ?_
    cases hf : s.fetch with
    | error a =>
      obtain ⟨hpc, rfl⟩ := State.fetch_eq_error.1 hf
      rw [step_of_fetch_error hr hf] at h
      exact .inl ⟨hr, hpc, (Host.Outcome.next.inj h).symm⟩
    | ok w =>
      refine .inr ?_
      have hat := State.At.of_fetch hr hf
      rw [step_of_at hat, execWord] at h
      cases hd : decodeWord w with
      | error e =>
        rw [hd] at h
        refine .inl ⟨w, e, hat, hd, ?_⟩
        rw [← Host.Outcome.next.inj h]
        exact State.endCycle_running hr
      | ok i =>
        rw [hd] at h
        cases hx : exec i (s.advance w) with
        | next u =>
          simp only [hx, closeCycle] at h
          exact .inr ⟨w, i, u, hat, hd, hx, (Host.Outcome.next.inj h).symm⟩
        | fault f => simp only [hx, closeCycle, reduceCtorEq] at h
        | refused r => simp only [hx, closeCycle, reduceCtorEq] at h
  · rw [step_of_halted hr] at h
    exact .inl ⟨hr, (Host.Outcome.next.inj h).symm⟩

/-- No instruction is refused. -/
theorem exec_ne_refused (i : Instr) (s : State) (r : Refusal) : exec i s ≠ .refused r := by
  cases i <;> simp only [exec, execCls, execRet, execSys, execJp, execCall, execSeImm, execSneImm, execSeReg,
    execLdImm, execAddImm, execLdReg, execOrReg, execAndReg, execXorReg, execAddReg, execSubReg, execShr,
    execSubnReg, execShl, execSneReg, execLdI, execJpV0, execRnd, execDrw, execSkp, execSknp, execLdVxDt,
    execLdVxK, execLdDtVx, execLdStVx, execAddI, execLdF, execLdB, execStoreRegs, execLoadRegs] <;>
    (try split) <;> (try split) <;> simp

/-- What an execute step does with `FAULT`: nothing, or it raises and does nothing else. 60_exceptions R224. -/
theorem exec_fault_or_raise {i : Instr} {s t : State} (h : exec i s = .next t) :
    t.fault = s.fault ∨ ∃ k, t = s.raise k := by
  cases i <;> simp only [exec, execCls, execRet, execSys, execJp, execCall, execSeImm, execSneImm, execSeReg,
    execLdImm, execAddImm, execLdReg, execOrReg, execAndReg, execXorReg, execAddReg, execSubReg, execShr,
    execSubnReg, execShl, execSneReg, execLdI, execJpV0, execRnd, execDrw, execSkp, execSknp, execLdVxDt,
    execLdVxK, execLdDtVx, execLdStVx, execAddI, execLdF, execLdB, execStoreRegs, execLoadRegs] at h <;>
    (try split at h) <;> (try split at h) <;> cases h <;> first | exact .inl rfl | exact .inr ⟨_, rfl⟩

/-- The one stop of the model: `CALL` or `RET` with more than 16 entries. 10_state R26 (log 4). -/
theorem exec_fault_cases {i : Instr} {s : State} {f : Fault} (h : exec i s = .fault f) :
    16 < s.sp.toNat ∧ f = .illegalStackPointer s.sp ∧ ((∃ nnn, i = .call nnn) ∨ i = .ret) := by
  cases i <;> simp only [exec, execCls, execRet, execSys, execJp, execCall, execSeImm, execSneImm, execSeReg,
    execLdImm, execAddImm, execLdReg, execOrReg, execAndReg, execXorReg, execAddReg, execSubReg, execShr,
    execSubnReg, execShl, execSneReg, execLdI, execJpV0, execRnd, execDrw, execSkp, execSknp, execLdVxDt,
    execLdVxK, execLdDtVx, execLdStVx, execAddI, execLdF, execLdB, execStoreRegs, execLoadRegs] at h <;>
    (try split at h) <;> (try split at h) <;> cases h
  · rename_i hn
    rw [Vector.getElem?_eq_none_iff] at hn
    exact ⟨by omega, rfl, .inr rfl⟩
  · rename_i h1 h2
    simp only [Config.stackDepth] at h1 h2
    exact ⟨by omega, rfl, .inl ⟨_, rfl⟩⟩

end Sys2Proof.Machine
end

