-- ==== Sys2Proof/Laws/PerInstr.lean ====
section
/-! SUPPORT. Per instruction: its word has the fixed digits of its own row of the opcode map, whatever its operands
(spec/30_encoding.md R80). One lemma per constructor of `Instr`. -/

namespace Sys2Proof.Laws.RowMatch

/-- The row of the opcode map with the instruction's number accepts the instruction's word. 30_encoding R80. -/
def Statement (i : Instr) : Prop :=
  ∃ r ∈ opcodeMap, r.number = i.rowNumber ∧ r.accepts (encode i) = true

/-! ## The fixed digits under each mask: 30_encoding R72, R80 -/

theorem mask_formatA (op : BitVec 4) (nnn : Addr12) : formatA op nnn &&& 0xF000 = formatA op 0 := by
  rw [formatA, show (0xF000 : Word) = BitVec.allOnes 4 ++ (0 : BitVec 12) from rfl, BitVec.and_append]
  simp only [BitVec.and_allOnes, BitVec.ofNat_eq_ofNat, BitVec.and_zero]
  rfl

theorem mask_formatXK (op : BitVec 4) (x : Reg) (nn : Byte) : formatXK op x nn &&& 0xF000 = formatXK op 0 0 := by
  rw [formatXK, show (0xF000 : Word) = BitVec.allOnes 4 ++ (0 : BitVec 4) ++ (0 : BitVec 8) from rfl,
    BitVec.and_append, BitVec.and_append]
  simp only [BitVec.and_allOnes, BitVec.ofNat_eq_ofNat, BitVec.and_zero]
  rfl

theorem mask_formatX (op : BitVec 4) (x : Reg) (nn : Byte) : formatXK op x nn &&& 0xF0FF = formatXK op 0 nn := by
  rw [formatXK, show (0xF0FF : Word) = BitVec.allOnes 4 ++ (0 : BitVec 4) ++ BitVec.allOnes 8 from rfl,
    BitVec.and_append, BitVec.and_append]
  simp only [BitVec.and_allOnes, BitVec.ofNat_eq_ofNat, BitVec.and_zero]
  rfl

theorem mask_formatXYN (op : BitVec 4) (x y : Reg) (n : Fin 16) :
    formatXYN op x y n &&& 0xF000 = formatXYN op 0 0 0 := by
  rw [formatXYN, show (0xF000 : Word) = BitVec.allOnes 4 ++ (0 : BitVec 4) ++ (0 : BitVec 4) ++ (0 : BitVec 4) from rfl,
    BitVec.and_append, BitVec.and_append, BitVec.and_append]
  simp only [BitVec.and_allOnes, BitVec.ofNat_eq_ofNat, BitVec.and_zero]
  rfl

theorem mask_formatXY (op : BitVec 4) (x y : Reg) (n : Fin 16) :
    formatXYN op x y n &&& 0xF00F = formatXYN op 0 0 n := by
  rw [formatXYN, show (0xF00F : Word) = BitVec.allOnes 4 ++ (0 : BitVec 4) ++ (0 : BitVec 4) ++ BitVec.allOnes 4 from rfl,
    BitVec.and_append, BitVec.and_append, BitVec.and_append]
  simp only [BitVec.and_allOnes, BitVec.ofNat_eq_ofNat, BitVec.and_zero]
  rfl

/-! ## One lemma per instruction -/

theorem cls : Statement .cls := ⟨⟨1, 0xFFFF, 0x00E0⟩, by decide, rfl, rfl⟩

theorem ret : Statement .ret := ⟨⟨2, 0xFFFF, 0x00EE⟩, by decide, rfl, rfl⟩

theorem sys (nnn : Addr12) : Statement (.sys nnn) :=
  ⟨⟨3, 0xF000, 0x0000⟩, by decide, rfl, beq_iff_eq.2 (mask_formatA 0x0 nnn)⟩

theorem jp (nnn : Addr12) : Statement (.jp nnn) :=
  ⟨⟨4, 0xF000, 0x1000⟩, by decide, rfl, beq_iff_eq.2 (mask_formatA 0x1 nnn)⟩

theorem call (nnn : Addr12) : Statement (.call nnn) :=
  ⟨⟨5, 0xF000, 0x2000⟩, by decide, rfl, beq_iff_eq.2 (mask_formatA 0x2 nnn)⟩

theorem seImm (x : Reg) (nn : Byte) : Statement (.seImm x nn) :=
  ⟨⟨6, 0xF000, 0x3000⟩, by decide, rfl, beq_iff_eq.2 (mask_formatXK 0x3 x nn)⟩

theorem sneImm (x : Reg) (nn : Byte) : Statement (.sneImm x nn) :=
  ⟨⟨7, 0xF000, 0x4000⟩, by decide, rfl, beq_iff_eq.2 (mask_formatXK 0x4 x nn)⟩

theorem seReg (x y : Reg) : Statement (.seReg x y) :=
  ⟨⟨8, 0xF00F, 0x5000⟩, by decide, rfl, beq_iff_eq.2 (mask_formatXY 0x5 x y 0x0)⟩

theorem ldImm (x : Reg) (nn : Byte) : Statement (.ldImm x nn) :=
  ⟨⟨9, 0xF000, 0x6000⟩, by decide, rfl, beq_iff_eq.2 (mask_formatXK 0x6 x nn)⟩

theorem addImm (x : Reg) (nn : Byte) : Statement (.addImm x nn) :=
  ⟨⟨10, 0xF000, 0x7000⟩, by decide, rfl, beq_iff_eq.2 (mask_formatXK 0x7 x nn)⟩

theorem ldReg (x y : Reg) : Statement (.ldReg x y) :=
  ⟨⟨11, 0xF00F, 0x8000⟩, by decide, rfl, beq_iff_eq.2 (mask_formatXY 0x8 x y 0x0)⟩

theorem orReg (x y : Reg) : Statement (.orReg x y) :=
  ⟨⟨12, 0xF00F, 0x8001⟩, by decide, rfl, beq_iff_eq.2 (mask_formatXY 0x8 x y 0x1)⟩

theorem andReg (x y : Reg) : Statement (.andReg x y) :=
  ⟨⟨13, 0xF00F, 0x8002⟩, by decide, rfl, beq_iff_eq.2 (mask_formatXY 0x8 x y 0x2)⟩

theorem xorReg (x y : Reg) : Statement (.xorReg x y) :=
  ⟨⟨14, 0xF00F, 0x8003⟩, by decide, rfl, beq_iff_eq.2 (mask_formatXY 0x8 x y 0x3)⟩

theorem addReg (x y : Reg) : Statement (.addReg x y) :=
  ⟨⟨15, 0xF00F, 0x8004⟩, by decide, rfl, beq_iff_eq.2 (mask_formatXY 0x8 x y 0x4)⟩

theorem subReg (x y : Reg) : Statement (.subReg x y) :=
  ⟨⟨16, 0xF00F, 0x8005⟩, by decide, rfl, beq_iff_eq.2 (mask_formatXY 0x8 x y 0x5)⟩

theorem shr (x y : Reg) : Statement (.shr x y) :=
  ⟨⟨17, 0xF00F, 0x8006⟩, by decide, rfl, beq_iff_eq.2 (mask_formatXY 0x8 x y 0x6)⟩

theorem subnReg (x y : Reg) : Statement (.subnReg x y) :=
  ⟨⟨18, 0xF00F, 0x8007⟩, by decide, rfl, beq_iff_eq.2 (mask_formatXY 0x8 x y 0x7)⟩

theorem shl (x y : Reg) : Statement (.shl x y) :=
  ⟨⟨19, 0xF00F, 0x800E⟩, by decide, rfl, beq_iff_eq.2 (mask_formatXY 0x8 x y 0xE)⟩

theorem sneReg (x y : Reg) : Statement (.sneReg x y) :=
  ⟨⟨20, 0xF00F, 0x9000⟩, by decide, rfl, beq_iff_eq.2 (mask_formatXY 0x9 x y 0x0)⟩

theorem ldI (nnn : Addr12) : Statement (.ldI nnn) :=
  ⟨⟨21, 0xF000, 0xA000⟩, by decide, rfl, beq_iff_eq.2 (mask_formatA 0xA nnn)⟩

theorem jpV0 (nnn : Addr12) : Statement (.jpV0 nnn) :=
  ⟨⟨22, 0xF000, 0xB000⟩, by decide, rfl, beq_iff_eq.2 (mask_formatA 0xB nnn)⟩

theorem rnd (x : Reg) (nn : Byte) : Statement (.rnd x nn) :=
  ⟨⟨23, 0xF000, 0xC000⟩, by decide, rfl, beq_iff_eq.2 (mask_formatXK 0xC x nn)⟩

theorem drw (x y : Reg) (n : Fin 16) : Statement (.drw x y n) :=
  ⟨⟨24, 0xF000, 0xD000⟩, by decide, rfl, beq_iff_eq.2 (mask_formatXYN 0xD x y n)⟩

theorem skp (x : Reg) : Statement (.skp x) :=
  ⟨⟨25, 0xF0FF, 0xE09E⟩, by decide, rfl, beq_iff_eq.2 (mask_formatX 0xE x 0x9E)⟩

theorem sknp (x : Reg) : Statement (.sknp x) :=
  ⟨⟨26, 0xF0FF, 0xE0A1⟩, by decide, rfl, beq_iff_eq.2 (mask_formatX 0xE x 0xA1)⟩

theorem ldVxDt (x : Reg) : Statement (.ldVxDt x) :=
  ⟨⟨27, 0xF0FF, 0xF007⟩, by decide, rfl, beq_iff_eq.2 (mask_formatX 0xF x 0x07)⟩

theorem ldVxK (x : Reg) : Statement (.ldVxK x) :=
  ⟨⟨28, 0xF0FF, 0xF00A⟩, by decide, rfl, beq_iff_eq.2 (mask_formatX 0xF x 0x0A)⟩

theorem ldDtVx (x : Reg) : Statement (.ldDtVx x) :=
  ⟨⟨29, 0xF0FF, 0xF015⟩, by decide, rfl, beq_iff_eq.2 (mask_formatX 0xF x 0x15)⟩

theorem ldStVx (x : Reg) : Statement (.ldStVx x) :=
  ⟨⟨30, 0xF0FF, 0xF018⟩, by decide, rfl, beq_iff_eq.2 (mask_formatX 0xF x 0x18)⟩

theorem addI (x : Reg) : Statement (.addI x) :=
  ⟨⟨31, 0xF0FF, 0xF01E⟩, by decide, rfl, beq_iff_eq.2 (mask_formatX 0xF x 0x1E)⟩

theorem ldF (x : Reg) : Statement (.ldF x) :=
  ⟨⟨32, 0xF0FF, 0xF029⟩, by decide, rfl, beq_iff_eq.2 (mask_formatX 0xF x 0x29)⟩

theorem ldB (x : Reg) : Statement (.ldB x) :=
  ⟨⟨33, 0xF0FF, 0xF033⟩, by decide, rfl, beq_iff_eq.2 (mask_formatX 0xF x 0x33)⟩

theorem storeRegs (x : Reg) : Statement (.storeRegs x) :=
  ⟨⟨34, 0xF0FF, 0xF055⟩, by decide, rfl, beq_iff_eq.2 (mask_formatX 0xF x 0x55)⟩

theorem loadRegs (x : Reg) : Statement (.loadRegs x) :=
  ⟨⟨35, 0xF0FF, 0xF065⟩, by decide, rfl, beq_iff_eq.2 (mask_formatX 0xF x 0x65)⟩

end Sys2Proof.Laws.RowMatch
end

