-- ==== Sys2Proof/Tests/Slice0.lean ====
section
/-! SUPPORT. The model's own tests: well-formedness, every constructor's decoding from a word written out from
spec/30_encoding.md R72 and R80, one-step tests with the expected values of spec/95_test_vectors.md (the vector's id
stands in each docstring), and for every obligation with hypotheses a witness that meets them. -/

namespace Sys2Proof.Tests

open Sys2Proof Sys2Proof.Machine

/-! ## Helpers -/

/-- The reset state with some registers set. -/
def regs (l : List (Reg × Byte)) : State := l.foldl (fun s p => s.setReg p.1 p.2) State.reset

/-- A keypad snapshot with these keys pressed. -/
def down (l : List Nat) : Keys := Vector.ofFn fun k => l.contains k.val

/-- Some cells of a state's framebuffer toggled, given as (column, row). -/
def lit (l : List (Fin 64 × Fin 32)) (s : State) : State :=
  l.foldl (fun s p => s.setFb (s.fb.setCell p.2 p.1 (!s.fb.cell p.2 p.1))) s

/-- What can be seen after one step from a state with a word placed at its `PC`. -/
def see {α : Type} (w : Word) (s : State) (f : State → α) : Option α :=
  match step (s.placeWord w) with
  | .next t => some (f t)
  | .fault _ => none
  | .refused _ => none

/-- Does a step answer a next state with a property? -/
def steps (s : State) (p : State → Bool) : Bool :=
  match step s with
  | .next t => p t
  | .fault _ => false
  | .refused _ => false

theorem of_steps {s : State} {p : State → Bool} (h : steps s p = true) : ∃ t, step s = .next t ∧ p t = true := by
  unfold steps at h
  split at h
  · exact ⟨_, ‹_›, h⟩
  · cases h
  · cases h

/-- Does an execute step answer a next state with a property? -/
def execs (i : Instr) (s : State) (p : State → Bool) : Bool :=
  match exec i s with
  | .next t => p t
  | .fault _ => false
  | .refused _ => false

theorem of_execs {i : Instr} {s : State} {p : State → Bool} (h : execs i s p = true) :
    ∃ t, exec i s = .next t ∧ p t = true := by
  unfold execs at h
  split at h
  · exact ⟨_, ‹_›, h⟩
  · cases h
  · cases h

/-- Is the word at `PC` and does the core run? -/
def isAt (s : State) (w : Word) : Bool :=
  s.fault == none && decide (s.pc.toNat ≤ 0xFFE) && s.mem.read s.pc.toNat == w.extractLsb' 8 8 &&
    s.mem.read (s.pc.toNat + 1) == w.extractLsb' 0 8

theorem at_of {s : State} {w : Word} (h : isAt s w = true) : s.At w := by
  simp only [isAt, Bool.and_eq_true, beq_iff_eq, decide_eq_true_eq] at h
  exact ⟨h.1.1.1, h.1.1.2, h.1.2, h.2⟩

/-! ## Well-formedness: 40_cycle R105, 30_encoding R80 -/

theorem test_wellFormed_refuses_sys_cls : (Instr.sys 0x0E0).wellFormed = false := by decide
theorem test_wellFormed_refuses_sys_ret : (Instr.sys 0x0EE).wellFormed = false := by decide
theorem test_wellFormed_accepts_neighbours :
    (Instr.sys 0x0E1).wellFormed = true ∧ (Instr.sys 0x1E0).wellFormed = true ∧ (Instr.sys 0x000).wellFormed = true ∧
    Instr.cls.wellFormed = true ∧ (Instr.jp 0x0E0).wellFormed = true := by decide

/-! ## Decoding: 30_encoding R72, R80. Each word is written digit by digit: op, x, y, n -/

theorem test_decode_cls : decodeBytes [0b00000000, 0b11100000] = .ok (.cls, []) := by decide
theorem test_decode_ret : decodeBytes [0b00000000, 0b11101110] = .ok (.ret, []) := by decide
theorem test_decode_sys : decodeBytes [0b00000010, 0b00110100] = .ok (.sys 0x234, []) := by decide
theorem test_decode_jp : decodeBytes [0b00011010, 0b10111100] = .ok (.jp 0xABC, []) := by decide
theorem test_decode_call : decodeBytes [0b00100011, 0b00011111] = .ok (.call 0x31F, []) := by decide
theorem test_decode_seImm : decodeBytes [0b00110011, 0b00101010] = .ok (.seImm 3 0x2A, []) := by decide
theorem test_decode_sneImm : decodeBytes [0b01000100, 0b10000000] = .ok (.sneImm 4 0x80, []) := by decide
theorem test_decode_seReg : decodeBytes [0b01010001, 0b00100000] = .ok (.seReg 1 2, []) := by decide
theorem test_decode_ldImm : decodeBytes [0b01101010, 0b00101011] = .ok (.ldImm 10 0x2B, []) := by decide
theorem test_decode_addImm : decodeBytes [0b01111111, 0b00000001] = .ok (.addImm 15 0x01, []) := by decide
theorem test_decode_ldReg : decodeBytes [0b10001001, 0b01100000] = .ok (.ldReg 9 6, []) := by decide
theorem test_decode_orReg : decodeBytes [0b10001001, 0b01100001] = .ok (.orReg 9 6, []) := by decide
theorem test_decode_andReg : decodeBytes [0b10001001, 0b01100010] = .ok (.andReg 9 6, []) := by decide
theorem test_decode_xorReg : decodeBytes [0b10001001, 0b01100011] = .ok (.xorReg 9 6, []) := by decide
theorem test_decode_addReg : decodeBytes [0b10001001, 0b01100100] = .ok (.addReg 9 6, []) := by decide
theorem test_decode_subReg : decodeBytes [0b10001001, 0b01100101] = .ok (.subReg 9 6, []) := by decide
theorem test_decode_shr : decodeBytes [0b10001001, 0b01100110] = .ok (.shr 9 6, []) := by decide
theorem test_decode_subnReg : decodeBytes [0b10001001, 0b01100111] = .ok (.subnReg 9 6, []) := by decide
theorem test_decode_shl : decodeBytes [0b10001001, 0b01101110] = .ok (.shl 9 6, []) := by decide
theorem test_decode_sneReg : decodeBytes [0b10011100, 0b01010000] = .ok (.sneReg 12 5, []) := by decide
theorem test_decode_ldI : decodeBytes [0b10100010, 0b11110000] = .ok (.ldI 0x2F0, []) := by decide
theorem test_decode_jpV0 : decodeBytes [0b10111111, 0b11111111] = .ok (.jpV0 0xFFF, []) := by decide
theorem test_decode_rnd : decodeBytes [0b11000011, 0b00001111] = .ok (.rnd 3 0x0F, []) := by decide
theorem test_decode_drw : decodeBytes [0b11011101, 0b00010111] = .ok (.drw 13 1 7, []) := by decide
theorem test_decode_skp : decodeBytes [0b11100010, 0b10011110] = .ok (.skp 2, []) := by decide
theorem test_decode_sknp : decodeBytes [0b11100010, 0b10100001] = .ok (.sknp 2, []) := by decide
theorem test_decode_ldVxDt : decodeBytes [0b11111000, 0b00000111] = .ok (.ldVxDt 8, []) := by decide
theorem test_decode_ldVxK : decodeBytes [0b11110011, 0b00001010] = .ok (.ldVxK 3, []) := by decide
theorem test_decode_ldDtVx : decodeBytes [0b11111000, 0b00010101] = .ok (.ldDtVx 8, []) := by decide
theorem test_decode_ldStVx : decodeBytes [0b11111000, 0b00011000] = .ok (.ldStVx 8, []) := by decide
theorem test_decode_addI : decodeBytes [0b11111110, 0b00011110] = .ok (.addI 14, []) := by decide
theorem test_decode_ldF : decodeBytes [0b11110100, 0b00101001] = .ok (.ldF 4, []) := by decide
theorem test_decode_ldB : decodeBytes [0b11111011, 0b00110011] = .ok (.ldB 11, []) := by decide
theorem test_decode_storeRegs : decodeBytes [0b11111111, 0b01010101] = .ok (.storeRegs 15, []) := by decide
theorem test_decode_loadRegs : decodeBytes [0b11110000, 0b01100101] = .ok (.loadRegs 0, []) := by decide

/-- 30_encoding R70: two bytes per instruction, the rest of the stream left over; one byte is no instruction. -/
theorem test_decode_stream : decodeBytes [0x6A, 0x2B, 0x70] = .ok (.ldImm 10 0x2B, [0x70]) ∧
    decodeBytes [0x6A] = .error .truncated ∧ decodeBytes [] = .error .truncated := by decide

/-- 95 C3 to C7: near misses are rejected by name. -/
theorem test_decode_near_misses :
    decodeWord 0x5121 = .error (.unrecognised 0x5121) ∧ decodeWord 0x9121 = .error (.unrecognised 0x9121) ∧
    decodeWord 0x8128 = .error (.unrecognised 0x8128) ∧ decodeWord 0xE19F = .error (.unrecognised 0xE19F) ∧
    decodeWord 0xF1FF = .error (.unrecognised 0xF1FF) := by decide

/-- The host's numbering of a row's bits: the word itself. -/
theorem test_decodeTableWord : decodeTableWord 16 0xE09E = some (.skp 0) ∧ decodeTableWord 16 0x8008 = none := by
  decide

/-! ## Reset and the host's ports -/

set_option maxRecDepth 4000 in
/-- 10_state R35, R36: reset with the default font is `State.reset`. -/
theorem test_reset_default_font : State.resetWith Config.font = State.reset := by decide

/-- 10_state R36: bytes of glyphs 0, 1, 7 and F in memory after reset (95 M21, P6), zero around the table. -/
theorem test_reset_font_bytes :
    State.reset.mem.readList 0x050 6 = [0xF0, 0x90, 0x90, 0x90, 0xF0, 0x20] ∧
    State.reset.mem.readList 0x073 5 = [0xF0, 0x10, 0x20, 0x40, 0x40] ∧
    State.reset.mem.readList 0x09B 6 = [0xF0, 0x80, 0xF0, 0x80, 0x80, 0x00] ∧
    State.reset.mem.read 0x04F = 0 := by decide

/-- 70 R255: a short ROM lands at 0x200 and is the next instruction fetched. -/
theorem test_romLoad_then_fetch : (State.reset.romLoad [0x6A, 0x2B]).fetch = .ok 0x6A2B := by decide

/-- The host's placed word is the one the first step runs (95 A1). -/
theorem test_withFetchWord : steps (State.reset.withFetchWord 16 0x6AFE) (fun t => t.ir == 0x6AFE && t.reg 10 == 0xFE) = true := by
  decide

/-! ## One step of each instruction: spec/95_test_vectors.md -/

/-- 95 D1. -/
theorem test_cls :
    see 0x00E0 (lit [(0, 0), (10, 5), (63, 31)] (regs [(15, 0x77)])) (fun t => (t.fb.cell 0 0, t.fb.cell 5 10, t.fb.cell 31 63, t.reg 15, t.pc)) =
      some (false, false, false, 0x77, 0x0202) := by decide

/-- 95 F4. -/
theorem test_ret :
    see 0x00EE ({ State.reset with pc := 0x0300, sp := 1, stack := State.reset.stack.set 0 0x0202 }) (fun t => (t.pc, t.sp, t.stack[0])) =
      some (0x0202, 0, 0x0202) := by decide

/-- 95 F23. -/
theorem test_ret_empty :
    see 0x00EE (State.reset) (fun t => (t.pc, t.sp, t.fault)) =
      some (0x0200, 0, some ⟨.stackUnderflow, 0x0200, some 0x00EE⟩) := by decide

/-- 95 C9. -/
theorem test_sys_is_not_cls :
    see 0x01E0 (lit [(3, 4)] State.reset) (fun t => (t.pc, t.fb.cell 4 3)) =
      some (0x0202, true) := by decide

/-- 95 C11. -/
theorem test_sys_ticks_timers :
    see 0x0000 ({ State.reset with dt := 5, st := 1 }) (fun t => (t.pc, t.dt, t.st)) =
      some (0x0202, 4, 0) := by decide

/-- 95 C13. -/
theorem test_unrecognised_ticks_timers :
    see 0x5121 ({ State.reset with dt := 0xFF, st := 0x80 }) (fun t => (t.pc, t.dt, t.st)) =
      some (0x0202, 0xFE, 0x7F) := by decide

/-- 95 F1. -/
theorem test_jp :
    see 0x1ABC (State.reset) (fun t => t.pc) =
      some 0x0ABC := by decide

/-- 95 F2. -/
theorem test_jp_self :
    see 0x1200 ({ State.reset with dt := 2 }) (fun t => (t.pc, t.dt)) =
      some (0x0200, 1) := by decide

/-- 95 F21. -/
theorem test_call_last_slot :
    see 0x2300 ({ State.reset with sp := 15 }) (fun t => (t.pc, t.sp, t.stack[15])) =
      some (0x0300, 16, 0x0202) := by decide

/-- 95 F22. -/
theorem test_call_full :
    see 0x2300 ({ State.reset with sp := 16 }) (fun t => (t.pc, t.sp, t.fault)) =
      some (0x0200, 16, some ⟨.stackOverflow, 0x0200, some 0x2300⟩) := by decide

/-- 95 F6. -/
theorem test_seImm :
    see 0x3142 (regs [(1, 0x42)]) (fun t => t.pc) =
      some 0x0204 := by decide

/-- 95 F20. -/
theorem test_seImm_top :
    see 0x3000 ({ State.reset with pc := 0x0FFE }) (fun t => (t.pc, t.fault)) =
      some (0x1002, none) := by decide

/-- 95 F8. -/
theorem test_sneImm :
    see 0x4143 (regs [(1, 0x42)]) (fun t => t.pc) =
      some 0x0204 := by decide

/-- 95 F9. -/
theorem test_sneImm_equal :
    see 0x4142 (regs [(1, 0x42)]) (fun t => t.pc) =
      some 0x0202 := by decide

/-- 95 F10. -/
theorem test_seReg :
    see 0x5120 (regs [(1, 7), (2, 7)]) (fun t => t.pc) =
      some 0x0204 := by decide

/-- 95 F11. -/
theorem test_seReg_differ :
    see 0x5120 (regs [(1, 7), (2, 8)]) (fun t => t.pc) =
      some 0x0202 := by decide

/-- 95 F13. -/
theorem test_sneReg :
    see 0x9120 (regs [(1, 7), (2, 8)]) (fun t => t.pc) =
      some 0x0204 := by decide

/-- 95 F15. -/
theorem test_sneReg_same :
    see 0x9110 (regs [(1, 0x99)]) (fun t => t.pc) =
      some 0x0202 := by decide

/-- 95 A1. -/
theorem test_ldImm :
    see 0x6AFE (State.reset) (fun t => (t.reg 10, t.pc)) =
      some (0xFE, 0x0202) := by decide

/-- 95 A2. -/
theorem test_addImm_wraps :
    see 0x7102 (regs [(1, 0xFF), (15, 0x55)]) (fun t => (t.reg 1, t.reg 15)) =
      some (0x01, 0x55) := by decide

/-- 95 A3. -/
theorem test_addImm_vf :
    see 0x7F01 (regs [(15, 0xFF)]) (fun t => t.reg 15) =
      some 0x00 := by decide

/-- 95 A4. -/
theorem test_ldReg :
    see 0x8120 (regs [(2, 0xAB)]) (fun t => (t.reg 1, t.reg 2)) =
      some (0xAB, 0xAB) := by decide

/-- 95 A5. -/
theorem test_orReg :
    see 0x8121 (regs [(1, 0xCC), (2, 0xAA), (15, 0x77)]) (fun t => (t.reg 1, t.reg 15)) =
      some (0xEE, 0x77) := by decide

/-- 95 A6. -/
theorem test_andReg :
    see 0x8122 (regs [(1, 0xCC), (2, 0xAA), (15, 0x77)]) (fun t => (t.reg 1, t.reg 15)) =
      some (0x88, 0x77) := by decide

/-- 95 A7. -/
theorem test_xorReg :
    see 0x8123 (regs [(1, 0xCC), (2, 0xAA), (15, 0x77)]) (fun t => (t.reg 1, t.reg 15)) =
      some (0x66, 0x77) := by decide

/-- 95 A9 (source S4). -/
theorem test_addReg_carry :
    see 0x8124 (regs [(1, 0xF2), (2, 0xF3)]) (fun t => (t.reg 1, t.reg 15)) =
      some (0xE5, 1) := by decide

/-- 95 A10. -/
theorem test_addReg_255 :
    see 0x8124 (regs [(1, 0x80), (2, 0x7F), (15, 1)]) (fun t => (t.reg 1, t.reg 15)) =
      some (0xFF, 0) := by decide

/-- 95 A14. -/
theorem test_subReg_less :
    see 0x8125 (regs [(1, 0x01), (2, 0x10), (15, 1)]) (fun t => (t.reg 1, t.reg 15)) =
      some (0xF1, 0) := by decide

/-- 95 A15. -/
theorem test_subReg_equal :
    see 0x8125 (regs [(1, 0x33), (2, 0x33), (15, 1)]) (fun t => (t.reg 1, t.reg 15)) =
      some (0x00, 0) := by decide

/-- 95 A19 (source S5). -/
theorem test_shr :
    see 0x8126 (regs [(1, 0x09), (2, 0xFF)]) (fun t => (t.reg 1, t.reg 15, t.reg 2)) =
      some (0x04, 1, 0xFF) := by decide

/-- 95 A36. -/
theorem test_shr_vf :
    see 0x8F06 (regs [(15, 0x07)]) (fun t => t.reg 15) =
      some 0x03 := by decide

/-- 95 A16. -/
theorem test_subnReg :
    see 0x8127 (regs [(1, 0x01), (2, 0x10)]) (fun t => (t.reg 1, t.reg 15)) =
      some (0x0F, 1) := by decide

/-- 95 A38. -/
theorem test_subnReg_y_vf :
    see 0x81F7 (regs [(1, 0x05), (15, 0x03)]) (fun t => (t.reg 1, t.reg 15)) =
      some (0xFE, 0) := by decide

/-- The example of 42_alu R152 (source S5). -/
theorem test_shl :
    see 0x811E (regs [(1, 0x88)]) (fun t => (t.reg 1, t.reg 15)) =
      some (0x10, 1) := by decide

/-- 95 A39. -/
theorem test_shl_vf :
    see 0x8F0E (regs [(15, 0x81)]) (fun t => t.reg 15) =
      some 0x02 := by decide

/-- 95 M2. -/
theorem test_ldI :
    see 0xAFFF (State.reset.setIndex 0x5555) (fun t => (t.index, t.pc)) =
      some (0x0FFF, 0x0202) := by decide

/-- 95 F16. -/
theorem test_jpV0 :
    see 0xB300 (regs [(0, 0x10)]) (fun t => t.pc) =
      some 0x0310 := by decide

/-- 95 F17. -/
theorem test_jpV0_not_masked :
    see 0xBFFF (regs [(0, 0xFF)]) (fun t => (t.pc, t.fault)) =
      some (0x10FE, none) := by decide

/-- The example of 42_alu R153. -/
theorem test_rnd :
    see 0xC30F (State.reset.supply (down []) 0xB7) (fun t => t.reg 3) =
      some 0x07 := by decide

/-- 95 D2. -/
theorem test_drw_wraps :
    see 0xD121 (((regs [(1, 0x3E), (2, 0x1F), (15, 0x77)]).setIndex 0x0300).store 0x300 [0xA0]) (fun t => ([62, 63, 0, 1, 2].map (t.fb.cell 31), t.fb.cell 0 62, t.reg 15)) =
      some ([true, false, true, false, false], false, 0) := by decide

/-- 95 D10. -/
theorem test_drw_collides :
    see 0xD121 (lit [(0, 0)] ((State.reset.setIndex 0x0300).store 0x300 [0xC0])) (fun t => ([0, 1, 2].map (t.fb.cell 0), t.reg 15)) =
      some ([false, true, false], 1) := by decide

/-- 95 K1. -/
theorem test_skp :
    see 0xE29E ((regs [(2, 7)]).supply (down [7]) 0) (fun t => t.pc) =
      some 0x0204 := by decide

/-- 95 K5. -/
theorem test_skp_bad_key :
    see 0xE29E ((regs [(2, 0x10)]).supply (down [0]) 0) (fun t => (t.pc, t.fault)) =
      some (0x0200, some ⟨.keyIndexOutOfRange 0x10, 0x0200, some 0xE29E⟩) := by decide

/-- 95 K4. -/
theorem test_sknp :
    see 0xE2A1 ((regs [(2, 7)]).supply (down [7]) 0) (fun t => t.pc) =
      some 0x0202 := by decide

/-- 95 K6. -/
theorem test_sknp_bad_key :
    see 0xE2A1 (regs [(2, 0xFF)]) (fun t => (t.pc, t.fault)) =
      some (0x0200, some ⟨.keyIndexOutOfRange 0xFF, 0x0200, some 0xE2A1⟩) := by decide

/-- 95 K11. -/
theorem test_ldVxDt :
    see 0xF107 (State.reset.setDt 5) (fun t => (t.reg 1, t.dt)) =
      some (5, 4) := by decide

/-- 95 K7. -/
theorem test_ldVxK_waits :
    see 0xF30A (((regs [(3, 0x99)]).setDt 5).supply (down []) 0) (fun t => (t.pc, t.dt, t.reg 3)) =
      some (0x0200, 4, 0x99) := by decide

/-- 95 K9. -/
theorem test_ldVxK_lowest :
    see 0xF30A (((regs [(3, 0x99)]).setDt 5).supply (down [9, 12]) 0) (fun t => (t.pc, t.dt, t.reg 3)) =
      some (0x0202, 4, 9) := by decide

/-- 95 K12. -/
theorem test_ldDtVx :
    see 0xF115 (regs [(1, 3)]) (fun t => (t.dt, t.reg 1)) =
      some (2, 3) := by decide

/-- 95 K13. -/
theorem test_ldDtVx_zero :
    see 0xF115 (State.reset.setDt 9) (fun t => t.dt) =
      some 0 := by decide

/-- 95 K15. -/
theorem test_ldStVx :
    see 0xF118 (regs [(1, 2)]) (fun t => (t.st, t.soundOut)) =
      some (1, true) := by decide

/-- 95 K16. -/
theorem test_ldStVx_full :
    see 0xF118 ((regs [(1, 0xFF)]).setDt 1) (fun t => (t.dt, t.st)) =
      some (0, 0xFE) := by decide

/-- 95 M4. -/
theorem test_addI :
    see 0xF11E ((regs [(1, 1), (15, 0x77)]).setIndex 0x0FFF) (fun t => (t.index, t.reg 15)) =
      some (0x1000, 0x77) := by decide

/-- 95 M5. -/
theorem test_addI_wraps :
    see 0xF11E ((regs [(1, 2)]).setIndex 0xFFFF) (fun t => t.index) =
      some 0x0001 := by decide

/-- 95 M6. -/
theorem test_ldF :
    see 0xF129 (regs [(1, 0x0A)]) (fun t => t.index) =
      some 0x0082 := by decide

/-- 95 M7. -/
theorem test_ldF_whole_byte :
    see 0xF129 (regs [(1, 0xFF)]) (fun t => t.index) =
      some 0x054B := by decide

/-- 95 M12. -/
theorem test_ldB :
    see 0xF133 ((regs [(1, 0xEA)]).setIndex 0x0FFD) (fun t => (t.mem.readList 0xFFD 3, t.index)) =
      some ([2, 3, 4], 0x0FFD) := by decide

/-- 95 M13. -/
theorem test_ldB_out_of_bounds :
    see 0xF133 ((regs [(1, 0x4F)]).setIndex 0x0FFE) (fun t => (t.fault, t.mem.readList 0xFFE 2)) =
      some (some ⟨.memoryOutOfBounds .write 0x1000, 0x0200, some 0xF133⟩, [0, 0]) := by decide

/-- 95 M16. -/
theorem test_storeRegs :
    see 0xF355 ((regs [(0, 1), (1, 2), (2, 3), (3, 0xC8)]).setIndex 0x0300) (fun t => (t.mem.readList 0x300 5, t.index)) =
      some ([1, 2, 3, 0xC8, 0], 0x0300) := by decide

/-- 95 M18. -/
theorem test_storeRegs_out_of_bounds :
    see 0xFF55 ((regs [(0, 0x10), (14, 0x1E)]).setIndex 0x0FF1) (fun t => (t.fault, t.mem.read 0xFF1, t.mem.read 0xFFF)) =
      some (some ⟨.memoryOutOfBounds .write 0x1000, 0x0200, some 0xFF55⟩, 0, 0) := by decide

/-- 95 M20. -/
theorem test_loadRegs :
    see 0xF265 (((regs [(3, 0x99)]).setIndex 0x0300).store 0x300 [0xDE, 0xAD, 0xBE, 0xEF]) (fun t => (t.reg 0, t.reg 1, t.reg 2, t.reg 3, t.index)) =
      some (0xDE, 0xAD, 0xBE, 0x99, 0x0300) := by decide

/-- 95 M22. -/
theorem test_loadRegs_out_of_bounds :
    see 0xF165 ((regs [(0, 0x5A)]).setIndex 0x0FFF) (fun t => (t.fault, t.reg 0, t.reg 1)) =
      some (some ⟨.memoryOutOfBounds .read 0x1000, 0x0200, some 0xF165⟩, 0x5A, 0) := by decide

/-- 95 C17, C18: the fetch faults, with the lowest bad address; the timers do not tick. -/
theorem test_fetch_faults :
    steps { State.reset with pc := 0x0FFF, dt := 9 }
      (fun t => t.fault == some ⟨.memoryOutOfBounds .fetch 0x1000, 0x0FFF, none⟩ && t.dt == 9) = true ∧
    steps { State.reset with pc := 0x10FE }
      (fun t => t.fault == some ⟨.memoryOutOfBounds .fetch 0x10FE, 0x10FE, none⟩) = true := by decide

/-- 95 C2: an odd `PC` fetches. -/
theorem test_odd_pc : see 0x602A { State.reset with pc := 0x0201 } (fun t => (t.pc, t.reg 0)) = some (0x0203, 0x2A) := by
  decide

/-! ## Witnesses: concrete states and operands that meet the hypotheses of each obligation, clause by clause -/

theorem of_runs {s : State} (h : steps s (fun t => t.fault == none) = true) : ∃ t, step s = .next t ∧ t.running := by
  obtain ⟨t, h1, h2⟩ := of_steps h
  exact ⟨t, h1, eq_of_beq h2⟩

theorem of_halts {s : State} (h : steps s (fun t => t.fault != none) = true) : ∃ t, step s = .next t ∧ t.halted := by
  obtain ⟨t, h1, h2⟩ := of_steps h
  exact ⟨t, h1, bne_iff_ne.1 h2⟩

/-- The reset state with a word placed at `PC`. -/
abbrev at0 (w : Word) : State := State.reset.placeWord w

/-- A legal state at every bound: stack full of the highest return address, `PC` the highest target. -/
def full : State := { State.reset with sp := 16, stack := Vector.replicate 16 0x1000, pc := 0x10FE }

theorem full_inv : full.Inv where
  sp_legal := by decide
  pc_bound := by decide
  stack_live := by decide
  mem_wf := by decide
  mem_range := by decide
  fault_pc := by intro r h; cases h

theorem witness_EncodeThenDecode : (Instr.sys 0x0DF).wellFormed = true ∧ (Instr.sys 0x0E1).wellFormed = true ∧
    (Instr.sys 0x0ED).wellFormed = true ∧ (Instr.sys 0x0EF).wellFormed = true ∧
    (Instr.drw 15 15 15).wellFormed = true := by decide

theorem witness_DecodeThenEncode : ∃ i, decodeWord 0x00EF = .ok i := ⟨.sys 0x0EF, by decide⟩

theorem witness_DecoderFollowsOpcodeMap :
    (∃ i, decodeWord 0x800E = .ok i) ∧ ∃ e, decodeWord 0x800F = .error e :=
  ⟨⟨.shl 0 0, by decide⟩, ⟨.unrecognised 0x800F, by decide⟩⟩

/-- The words at the ends of each clause are rejected, their recognised neighbours are not. -/
theorem witness_UnrecognisedWordsAre :
    ([0x5001, 0x5FFF, 0x8008, 0x800D, 0x8FFF, 0x9001, 0x9FFF, 0xE09D, 0xE09F, 0xE0A0, 0xE0A2, 0xF006, 0xF008,
      0xF066, 0xFFFF] : List Word).all (fun w => decodeWord w == .error (.unrecognised w)) = true ∧
    ([0x5000, 0x8007, 0x800E, 0x9000, 0xE09E, 0xE0A1, 0xF007, 0xF065] : List Word).all
      (fun w => decodeWord w != .error (.unrecognised w)) = true := by decide

theorem witness_StepRunsDecodedInstruction :
    ((at0 0x6AFE).At 0x6AFE ∧ decodeWord 0x6AFE = .ok (.ldImm 10 0xFE)) ∧
    ((at0 0x5121).At 0x5121 ∧ decodeWord 0x5121 = .error (.unrecognised 0x5121)) :=
  ⟨⟨at_of (by decide), by decide⟩, ⟨at_of (by decide), by decide⟩⟩

theorem witness_AdvanceLoadsIrAndMovesPc : { State.reset with pc := 0x0FFE }.pc.toNat ≤ 0xFFE := by decide

theorem witness_CycleEndCommitsOrDiscards :
    State.reset.running ∧ (State.reset.raise .stackUnderflow).fault = some ⟨.stackUnderflow, 0x01FE, some 0⟩ :=
  ⟨rfl, by decide⟩

theorem witness_FetchIsBigEndian :
    let s := { State.reset with pc := 0x0FFE }
    s.pc.toNat ≤ 0xFFE ∧ s.running ∧ ∃ t, step s = .next t ∧ t.running :=
  ⟨by decide, rfl, of_runs (by decide)⟩

theorem witness_FetchAboveMemoryFaults :
    ({ State.reset with pc := 0x0FFF }.running ∧ 0xFFE < { State.reset with pc := 0x0FFF }.pc.toNat) ∧
    ({ State.reset with pc := 0x1000 }.running ∧ 0xFFE < { State.reset with pc := 0x1000 }.pc.toNat) :=
  ⟨⟨rfl, by decide⟩, ⟨rfl, by decide⟩⟩

theorem witness_HaltedCoreDoesNothing : (State.reset.raise .stackUnderflow).halted := by
  intro h; cases h

theorem witness_FaultingCycleChangesOnlyFault :
    ((at0 0x00EE).running ∧ (at0 0x00EE).At 0x00EE ∧ ∃ t, step (at0 0x00EE) = .next t ∧ t.halted) ∧
    ({ State.reset with pc := 0x0FFF }.running ∧
      ∃ t, step { State.reset with pc := 0x0FFF } = .next t ∧ t.halted) :=
  ⟨⟨rfl, at_of (by decide), of_halts (by decide)⟩, ⟨rfl, of_halts (by decide)⟩⟩

/-- A running state whose step raises, for each clause, at its bound. -/
theorem witness_FaultsAriseExactlyWhen :
    (∃ t, step { State.reset with pc := 0x0FFF } = .next t ∧ t.halted) ∧
    (∃ t, step ({ State.reset with sp := 16 }.placeWord 0x2300) = .next t ∧ t.halted) ∧
    (∃ t, step (at0 0x00EE) = .next t ∧ t.halted) ∧
    (∃ t, step ((State.reset.setIndex 0x1000).placeWord 0xD121) = .next t ∧ t.halted) ∧
    (∃ t, step ((State.reset.setIndex 0x0FFE).placeWord 0xF133) = .next t ∧ t.halted) ∧
    (∃ t, step ((State.reset.setIndex 0x1000).placeWord 0xF055) = .next t ∧ t.halted) ∧
    (∃ t, step ((State.reset.setIndex 0x0FF1).placeWord 0xFF65) = .next t ∧ t.halted) ∧
    (∃ t, step ((regs [(2, 16)]).placeWord 0xE29E) = .next t ∧ t.halted) ∧
    (∃ t, step ((regs [(2, 16)]).placeWord 0xE2A1) = .next t ∧ t.halted) :=
  ⟨of_halts (by decide), of_halts (by decide), of_halts (by decide), of_halts (by decide), of_halts (by decide),
    of_halts (by decide), of_halts (by decide), of_halts (by decide), of_halts (by decide)⟩

theorem witness_TimersTickOncePerCycle :
    ((State.reset.raise .stackUnderflow).halted ∧ ∃ t, step (State.reset.raise .stackUnderflow) = .next t) ∧
    ((at0 0x00EE).running ∧ ∃ t, step (at0 0x00EE) = .next t ∧ t.halted) ∧
    (∀ w ∈ ([0xF107, 0xF115, 0xF118, 0x6AFE] : List Word), (at0 w).At w ∧ ∃ t, step (at0 w) = .next t ∧ t.running) := by
  refine ⟨⟨witness_HaltedCoreDoesNothing, _, rfl⟩, ⟨rfl, of_halts (by decide)⟩, ?_⟩
  intro w hw
  simp only [List.mem_cons, List.not_mem_nil, or_false] at hw
  rcases hw with rfl | rfl | rfl | rfl <;> exact ⟨at_of (by decide), of_runs (by decide)⟩

theorem witness_UnrecognisedWordIsNoOp : (at0 0x5121).At 0x5121 ∧ firstRow 0x5121 = none :=
  ⟨at_of (by decide), by decide⟩

theorem witness_SysIsNoOp : (at0 0x0FFF).At 0x0FFF ∧ decodeWord 0x0FFF = .ok (.sys 0xFFF) :=
  ⟨at_of (by decide), by decide⟩

theorem witness_LegalStatesAlwaysStep : full.sp.toNat ≤ 16 ∧ full.Inv := ⟨by decide, full_inv⟩

theorem witness_InvariantKeptByStep : full.Inv ∧ ∃ t, step full = .next t ∧ t.halted :=
  ⟨full_inv, of_halts (by decide)⟩

theorem witness_RomLoadCopiesOrRejects :
    (List.replicate 3584 (0xAB : Byte)).length ≤ 3584 ∧ 3584 < (List.replicate 3585 (0xAB : Byte)).length ∧ full.Inv :=
  ⟨by rw [List.length_replicate], by rw [List.length_replicate]; decide, full_inv⟩

theorem witness_SoundPortAfterLoad :
    ((regs [(1, 1)]).placeWord 0xF118).At (formatXK 0xF 1 0x18) ∧
    (∃ t, step ((regs [(1, 1)]).placeWord 0xF118) = .next t ∧ t.running) ∧
    ((regs [(1, 2)]).placeWord 0xF118).At (formatXK 0xF 1 0x18) ∧
    (∃ t, step ((regs [(1, 2)]).placeWord 0xF118) = .next t ∧ t.running) :=
  ⟨at_of (by decide), of_runs (by decide), at_of (by decide), of_runs (by decide)⟩

theorem witness_FrameOfEveryInstruction :
    (∃ t, exec (.addReg 1 2) State.reset = .next t) ∧
    ∃ t, exec .ret State.reset = .next t ∧ t.fault ≠ State.reset.fault :=
  ⟨⟨_, rfl⟩, ⟨_, rfl, by decide⟩⟩

theorem witness_WhatWritesPc :
    (∃ t, exec (.seImm 0 0) State.reset = .next t) ∧ (∃ t, exec (.jp 0xFFF) State.reset = .next t) ∧
    (∃ t, exec (.call 0xFFF) { State.reset with sp := 15 } = .next t) ∧
    (∃ t, exec (.call 0xFFF) { State.reset with sp := 16 } = .next t) ∧
    (∃ t, exec (.jpV0 0xFFF) (regs [(0, 0xFF)]) = .next t) ∧
    (∃ t, exec .ret full = .next t) ∧ (∃ t, exec .ret State.reset = .next t) ∧
    (∃ t, exec (.ldVxK 3) (State.reset.supply (down [15]) 0) = .next t) ∧
    (∃ t, exec (.ldVxK 3) (State.reset.supply (down []) 0) = .next t) ∧
    (∃ t, exec .cls State.reset = .next t) :=
  ⟨⟨_, rfl⟩, ⟨_, rfl⟩, ⟨_, rfl⟩, ⟨_, rfl⟩, ⟨_, rfl⟩, ⟨_, rfl⟩, ⟨_, rfl⟩, ⟨_, rfl⟩, ⟨_, rfl⟩, ⟨_, rfl⟩⟩

theorem witness_StackPointerMovesByOne :
    ({ State.reset with sp := 15 }.sp.toNat ≤ 16 ∧ ∃ t, exec (.call 0x300) { State.reset with sp := 15 } = .next t) ∧
    (full.sp.toNat ≤ 16 ∧ ∃ t, exec .ret full = .next t) :=
  ⟨⟨by decide, _, rfl⟩, ⟨by decide, _, rfl⟩⟩

theorem witness_RandomSeenOnlyByRnd :
    (∀ x nn, Instr.skp 0 ≠ .rnd x nn) ∧ ∃ t, exec (.skp 0) (State.reset.supply (down [0]) 0xFF) = .next t :=
  ⟨fun _ _ h => (by cases h), _, rfl⟩

theorem witness_KeysSeenOnlyByKeyInstructions :
    (∀ x, Instr.rnd 0 0xFF ≠ .skp x ∧ Instr.rnd 0 0xFF ≠ .sknp x ∧ Instr.rnd 0 0xFF ≠ .ldVxK x) ∧
    ∃ t, exec (.rnd 0 0xFF) (State.reset.supply (down [0]) 0xB7) = .next t :=
  ⟨fun _ => ⟨fun h => (by cases h), fun h => (by cases h), fun h => (by cases h)⟩, _, rfl⟩

theorem witness_SoundTimerNeverRead :
    ((∀ x, Instr.ldVxDt 1 ≠ .ldStVx x) ∧ ∃ t, exec (.ldVxDt 1) State.reset = .next t) ∧
    ((∃ x, Instr.ldStVx 1 = .ldStVx x) ∧ ∃ t, exec (.ldStVx 1) State.reset = .next t) :=
  ⟨⟨fun _ h => (by cases h), _, rfl⟩, ⟨⟨1, rfl⟩, _, rfl⟩⟩

theorem witness_InstructionRegisterNeverRead :
    State.reset.running ∧ ∃ t, exec (.ldImm 1 2) State.reset = .next t ∧ t.running := ⟨rfl, _, rfl, rfl⟩

theorem witness_SelfLoopIsStable : (at0 0x1200).At (formatA 0x1 0x200) ∧ (at0 0x1200).pc.toNat = (0x200 : Addr12).toNat :=
  ⟨at_of (by decide), by decide⟩

/-- The flag clauses of `FlagArithmetic` and `ShiftByOne`. -/
theorem witness_FlagArithmetic : (14 : Reg) ≠ VF := by decide
theorem witness_ShiftByOne : (0 : Reg) ≠ VF := by decide

theorem witness_CallPushesAndJumps :
    { State.reset with sp := 15 }.sp.toNat < 16 ∧ { State.reset with sp := 16 }.sp = 16 ∧
    16 < { State.reset with sp := 17 }.sp.toNat := by decide

theorem witness_ReturnPopsAndJumps :
    { State.reset with sp := 1 }.sp.toNat = (0 : Fin 16).val + 1 ∧ full.sp.toNat = (15 : Fin 16).val + 1 ∧
    State.reset.sp = 0 ∧ 16 < { State.reset with sp := 17 }.sp.toNat := by decide

/-- The highest stack slot: `CALL 0x300` with `SP = 15`, and `RET` at 0x300. -/
theorem witness_CallThenReturn :
    let s := ({ State.reset with sp := 15 }.store 0x300 [0x00, 0xEE]).placeWord 0x2300
    s.At (formatA 0x2 0x300) ∧ s.sp.toNat < 16 ∧ ∃ t, step s = .next t ∧ t.At 0x00EE := by
  refine ⟨at_of (by decide), by decide, ?_⟩
  obtain ⟨t, h1, h2⟩ := of_steps (s := ({ State.reset with sp := 15 }.store 0x300 [0x00, 0xEE]).placeWord 0x2300)
    (p := fun t => isAt t 0x00EE) (by decide)
  exact ⟨t, h1, at_of h2⟩

theorem witness_SkipsMeasureFromInstruction :
    ∀ w ∈ ([0x3000, 0x4001, 0x5010, 0x9010, 0xE09E, 0xE0A1] : List Word),
      let s := ({ State.reset with pc := 0x0FFE }.supply (down [0]) 0).placeWord w
      s.At w ∧ ∃ t, step s = .next t ∧ t.running := by
  intro w hw
  simp only [List.mem_cons, List.not_mem_nil, or_false] at hw
  rcases hw with rfl | rfl | rfl | rfl | rfl | rfl <;> exact ⟨at_of (by decide), of_runs (by decide)⟩

/-- The last base in memory and the first outside, for three bytes. -/
theorem witness_DecimalDigitsStored :
    (State.reset.setIndex 0x0FFD).base + 2 ≤ 0xFFF ∧ 0xFFF < (State.reset.setIndex 0x0FFE).base + 2 := by decide

/-- The last base in memory and the first outside, for sixteen bytes and for one. -/
theorem witness_RegistersStored :
    (State.reset.setIndex 0x0FF0).base + (15 : Reg).val ≤ 0xFFF ∧
    0xFFF < (State.reset.setIndex 0x0FF1).base + (15 : Reg).val ∧
    (State.reset.setIndex 0x0FFF).base + (0 : Reg).val ≤ 0xFFF ∧
    0xFFF < (State.reset.setIndex 0x1000).base + (0 : Reg).val := by decide

theorem witness_RegistersLoaded :
    (State.reset.setIndex 0x0FFE).base + (1 : Reg).val ≤ 0xFFF ∧
    0xFFF < (State.reset.setIndex 0x0FFF).base + (1 : Reg).val := by decide

theorem witness_StoreThenLoadRestores :
    let s := (regs [(0, 0x11), (1, 0x22)]).setIndex 0x0FFE
    s.base + (1 : Reg).val ≤ 0xFFF ∧ ∃ t u : State, exec (.storeRegs 1) s = .next t ∧ u.mem = t.mem ∧ u.index = t.index ∧
      u.reg 0 ≠ s.reg 0 :=
  ⟨by decide, _, State.setReg (State.store ((regs [(0, 0x11), (1, 0x22)]).setIndex 0x0FFE) 0xFFE [0x11, 0x22]) 0 0x99,
    rfl, by decide, by decide, by decide⟩

/-- `LD [I],V1` over the next instruction (95 M24), and at the top of memory. -/
theorem witness_StoredWordIsFetchedNext :
    (let s := ((regs [(0, 0x6A), (1, 0x55)]).setIndex 0x0202).placeWord 0xF155;
      1 ≤ (1 : Reg).val ∧ s.At (formatXK 0xF 1 0x55) ∧ s.index = s.pc + 2 ∧ s.base + (1 : Reg).val ≤ 0xFFF ∧
      ∃ t, step s = .next t ∧ t.running) ∧
    (let s := ({ (regs [(0, 0x6A), (1, 0x55)]).setIndex 0x0FFE with pc := 0x0FFC }).placeWord 0xF155;
      s.At (formatXK 0xF 1 0x55) ∧ s.index = s.pc + 2 ∧ s.base + (1 : Reg).val ≤ 0xFFF ∧
      ∃ t, step s = .next t ∧ t.running) :=
  ⟨⟨by decide, at_of (by decide), by decide, by decide, of_runs (by decide)⟩,
    ⟨at_of (by decide), by decide, by decide, of_runs (by decide)⟩⟩

/-- `n = 0` with `I` above memory, the longest sprite that ends at 0xFFF, the first base outside; a pixel over a cell
that is on, and a sprite over a blank screen (95 D7, D9). -/
theorem witness_DrawSprite :
    ((0 : Fin 16).val = 0 ∨ (State.reset.setIndex 0x2000).base + (0 : Fin 16).val - 1 ≤ 0xFFF) ∧
    ((15 : Fin 16).val = 0 ∨ (State.reset.setIndex 0x0FF1).base + (15 : Fin 16).val - 1 ≤ 0xFFF) ∧
    (0 < (1 : Fin 16).val ∧ 0xFFF < (State.reset.setIndex 0x1000).base + (1 : Fin 16).val - 1) ∧
    (let s := lit [(0, 0)] (State.reset.setIndex 0x0050);
      (s.mem.read (s.base + 0)).getLsbD (7 - 0) = true ∧
      s.fb.cell (wrapRow ((s.reg 2).toNat + 0)) (wrapCol ((s.reg 1).toNat + 0)) = true) ∧
    execs (.drw 1 2 0) ((regs [(15, 0x77)]).setIndex 0x2000) (fun t => t.fault == none && t.reg 15 == 0) = true ∧
    execs (.drw 1 2 2) ((regs [(15, 0x77)]).setIndex 0x0FFF)
      (fun t => t.fault == some ⟨.memoryOutOfBounds .read 0x1000, 0x01FE, some 0⟩ && t.reg 15 == 0x77) = true := by
  decide

theorem witness_DrawTwiceRestores :
    (1 : Reg) ≠ VF ∧ (2 : Reg) ≠ VF ∧
    ((5 : Fin 16).val = 0 ∨ (State.reset.setIndex 0x0050).base + (5 : Fin 16).val - 1 ≤ 0xFFF) ∧
    (∃ t, exec (.drw 1 2 5) (State.reset.setIndex 0x0050) = .next t) ∧
    ∀ cy cx, (State.reset.setIndex 0x0050).fb.cell cy cx = false := by
  refine ⟨by decide, by decide, by decide, ?_, fun cy cx => ?_⟩
  · obtain ⟨t, h, _⟩ := of_execs (i := .drw 1 2 5) (s := State.reset.setIndex 0x0050) (p := fun _ => true) (by decide)
    exact ⟨t, h⟩
  · simp [Framebuffer.cell, State.reset, State.setIndex]

theorem witness_KeySkips :
    (let s := (regs [(2, 15)]).supply (down [15]) 0;
      (s.reg 2).toNat = (15 : Fin 16).val ∧ s.keys[(15 : Fin 16).val] = true) ∧
    (let s := (regs [(2, 0)]).supply (down [15]) 0;
      (s.reg 2).toNat = (0 : Fin 16).val ∧ s.keys[(0 : Fin 16).val] = false) ∧
    15 < ((regs [(2, 16)]).reg 2).toNat := by decide

theorem witness_KeyWaitTakesLeastKey :
    (let s := State.reset.supply (down [15]) 0;
      s.keys[(15 : Fin 16).val] = true ∧ ∀ j : Fin 16, j < 15 → s.keys[j.val] = false) ∧
    (State.reset.supply (down [0, 15]) 0).keys[(0 : Fin 16).val] = true ∧
    (∀ k : Fin 16, (State.reset.supply (down []) 0).keys[k.val] = false) := by decide

theorem witness_KeyWaitStalls :
    let s := (State.reset.supply (down []) 0).placeWord 0xF30A
    s.At (formatXK 0xF 3 0x0A) ∧ ∀ k : Fin 16, s.keys[k.val] = false := ⟨at_of (by decide), by decide⟩

end Sys2Proof.Tests
end

section
/-! SUPPORT. What the execute step of an instruction that can raise answers, as equivalences: in this layer the
arms of `exec` that branch are opened once. Every other arm answers `.next` of one update of the state, so that
update is read off by `Host.Outcome.next.inj`. -/

namespace Sys2Proof.Machine

/-- The sprite of `DRW Vx,Vy,N` drawn on the screen of `s`. 44_display R192. -/
def State.drawing (s : State) (x y : Reg) (n : Fin 16) : Drawing :=
  Drawing.rows ⟨s.fb, false⟩ (s.reg y).toNat (s.reg x).toNat (s.mem.readList s.base n.val)

variable {s t : State} {x y : Reg}

/-- 41_flow R121, 60_exceptions R222. -/
theorem exec_ret_eq_next_iff : exec .ret s = .next t ↔
    (s.sp = 0 ∧ t = s.raise .stackUnderflow) ∨
    (s.sp ≠ 0 ∧ ∃ a, s.stack[s.sp.toNat - 1]? = some a ∧ t = s.popTo a) := by
  simp only [exec, execRet]
  split
  · rename_i h0
    simp [h0, eq_comm (a := t)]
  · rename_i h0
    simp only [h0, false_and, false_or, ne_eq, not_false_eq_true, true_and]
    split <;> rename_i he <;> simp [he, eq_comm (a := t)]

/-- 41_flow R123, 60_exceptions R221. -/
theorem exec_call_eq_next_iff {nnn : Addr12} : exec (.call nnn) s = .next t ↔
    (s.sp.toNat = 16 ∧ t = s.raise .stackOverflow) ∨
    (s.sp.toNat < 16 ∧ t = (s.push s.pc).setPc (addrImm nnn)) := by
  simp only [exec, execCall, Config.stackDepth]
  split
  · rename_i h16
    simp [h16, eq_comm (a := t)]
  · rename_i h16
    split <;> rename_i hlt <;> simp [h16, hlt, eq_comm (a := t)]

/-- 44_display R192, 60_exceptions R225. -/
theorem exec_drw_eq_next_iff {n : Fin 16} : exec (.drw x y n) s = .next t ↔
    (∃ a, outOfBounds s.base n.val = some a ∧ t = s.raise (.memoryOutOfBounds .read a)) ∨
    (outOfBounds s.base n.val = none ∧
      t = (s.setFb (s.drawing x y n).fb).setReg VF (flagByte (s.drawing x y n).hit)) := by
  simp only [exec, execDrw, State.drawing]
  split <;> rename_i he <;> simp [he, eq_comm (a := t)]

/-- 45_keypad_timers R201, 60_exceptions R226. -/
theorem exec_skp_eq_next_iff : exec (.skp x) s = .next t ↔
    (keyPressed s.keys (s.reg x) = none ∧ t = s.raise (.keyIndexOutOfRange (s.reg x))) ∨
    (∃ pressed, keyPressed s.keys (s.reg x) = some pressed ∧ t = s.skipIf pressed) := by
  simp only [exec, execSkp]
  split <;> rename_i he <;> simp [he, eq_comm (a := t)]

/-- 45_keypad_timers R202, 60_exceptions R226. -/
theorem exec_sknp_eq_next_iff : exec (.sknp x) s = .next t ↔
    (keyPressed s.keys (s.reg x) = none ∧ t = s.raise (.keyIndexOutOfRange (s.reg x))) ∨
    (∃ pressed, keyPressed s.keys (s.reg x) = some pressed ∧ t = s.skipIf (!pressed)) := by
  simp only [exec, execSknp]
  split <;> rename_i he <;> simp [he, eq_comm (a := t)]

/-- 43_index_memory R174, 60_exceptions R225. -/
theorem exec_ldB_eq_next_iff : exec (.ldB x) s = .next t ↔
    (∃ a, outOfBounds s.base 3 = some a ∧ t = s.raise (.memoryOutOfBounds .write a)) ∨
    (outOfBounds s.base 3 = none ∧ t = s.store s.base (decimalDigits (s.reg x))) := by
  simp only [exec, execLdB]
  split <;> rename_i he <;> simp [he, eq_comm (a := t)]

/-- 43_index_memory R175, 60_exceptions R225. -/
theorem exec_storeRegs_eq_next_iff : exec (.storeRegs x) s = .next t ↔
    (∃ a, outOfBounds s.base (x.val + 1) = some a ∧ t = s.raise (.memoryOutOfBounds .write a)) ∨
    (outOfBounds s.base (x.val + 1) = none ∧ t = s.store s.base (s.regsUpTo x)) := by
  simp only [exec, execStoreRegs]
  split <;> rename_i he <;> simp [he, eq_comm (a := t)]

/-- 43_index_memory R176, 60_exceptions R225. -/
theorem exec_loadRegs_eq_next_iff : exec (.loadRegs x) s = .next t ↔
    (∃ a, outOfBounds s.base (x.val + 1) = some a ∧ t = s.raise (.memoryOutOfBounds .read a)) ∨
    (outOfBounds s.base (x.val + 1) = none ∧ t = s.loadRegs (s.mem.readList s.base (x.val + 1))) := by
  simp only [exec, execLoadRegs]
  split <;> rename_i he <;> simp [he, eq_comm (a := t)]

end Sys2Proof.Machine
end

section
/-! SUPPORT. The frame of each update of the state: what it may change must be listed, everything else is the same. -/

namespace Sys2Proof.Machine

variable {regs : Reg → Prop} {parts : List StatePart} {s : State}

theorem OnlyChanges.refl : OnlyChanges regs parts s s :=
  ⟨fun _ _ => rfl, fun p _ => by cases p <;> simp [SamePart]⟩

/-- Changes one after the other. -/
theorem OnlyChanges.trans {t u : State} (h : OnlyChanges regs parts s t) (h' : OnlyChanges regs parts t u) :
    OnlyChanges regs parts s u := by
  refine ⟨fun r hr => (h'.1 r hr).trans (h.1 r hr), fun p hp => ?_⟩
  have := h.2 p hp
  have := h'.2 p hp
  cases p <;> simp_all [SamePart]

theorem OnlyChanges.setReg {x : Reg} {b : Byte} (hx : regs x) : OnlyChanges regs parts s (s.setReg x b) :=
  ⟨fun _ hr => State.reg_setReg_of_ne s b fun h => hr (h ▸ hx), fun p _ => by cases p <;> simp [SamePart]⟩

theorem OnlyChanges.setFlagThenReg {c : Bool} {x : Reg} {b : Byte} (hx : regs x) (hf : regs VF) :
    OnlyChanges regs parts s (s.setFlagThenReg c x b) :=
  .trans (.setReg hf) (.setReg hx)

theorem OnlyChanges.loadRegs {bs : List Byte} (h : ∀ r : Reg, r.val < bs.length → regs r) :
    OnlyChanges regs parts s (s.loadRegs bs) := by
  refine ⟨fun r hr => ?_, fun p _ => by cases p <;> simp [SamePart]⟩
  have hlen : bs.length ≤ r.val := Nat.le_of_not_lt fun hlt => hr (h r hlt)
  simp [getElem_regsFromList, hlen, State.reg]

theorem OnlyChanges.setPc {a : Word} (h : .pc ∈ parts) : OnlyChanges regs parts s (s.setPc a) :=
  ⟨fun _ _ => rfl, fun p hp => by cases p <;> simp_all [SamePart]⟩

theorem OnlyChanges.setIndex {a : Word} (h : .index ∈ parts) : OnlyChanges regs parts s (s.setIndex a) :=
  ⟨fun _ _ => rfl, fun p hp => by cases p <;> simp_all [SamePart]⟩

theorem OnlyChanges.setDt {b : Byte} (h : .delay ∈ parts) : OnlyChanges regs parts s (s.setDt b) :=
  ⟨fun _ _ => rfl, fun p hp => by cases p <;> simp_all [SamePart]⟩

theorem OnlyChanges.setSt {b : Byte} (h : .sound ∈ parts) : OnlyChanges regs parts s (s.setSt b) :=
  ⟨fun _ _ => rfl, fun p hp => by cases p <;> simp_all [SamePart]⟩

theorem OnlyChanges.setFb {f : Framebuffer} (h : .screen ∈ parts) : OnlyChanges regs parts s (s.setFb f) :=
  ⟨fun _ _ => rfl, fun p hp => by cases p <;> simp_all [SamePart]⟩

theorem OnlyChanges.store {a : Nat} {bs : List Byte} (h : .memory ∈ parts) :
    OnlyChanges regs parts s (s.store a bs) :=
  ⟨fun _ _ => rfl, fun p hp => by cases p <;> simp_all [SamePart]⟩

theorem OnlyChanges.push {a : Word} (h : .stack ∈ parts) : OnlyChanges regs parts s (s.push a) :=
  ⟨fun _ _ => rfl, fun p hp => by cases p <;> simp_all [SamePart]⟩

theorem OnlyChanges.popTo {a : Word} (hpc : .pc ∈ parts) (hst : .stack ∈ parts) :
    OnlyChanges regs parts s (s.popTo a) :=
  ⟨fun _ _ => rfl, fun p hp => by cases p <;> simp_all [SamePart]⟩

theorem OnlyChanges.raise {k : FaultInfo} (h : .faultReg ∈ parts) : OnlyChanges regs parts s (s.raise k) :=
  ⟨fun _ _ => rfl, fun p hp => by cases p <;> simp_all [SamePart]⟩

/-- A scan that finds a key writes the register; one that finds none moves `PC`. 45_keypad_timers R203. -/
theorem OnlyChanges.keyWait {x : Reg} {found : Option (Fin 16)} (hx : regs x) (hpc : .pc ∈ parts) :
    OnlyChanges regs parts s (s.keyWait x found) := by
  cases found with
  | none => exact .setPc hpc
  | some k => exact .setReg hx

end Sys2Proof.Machine
end

section
/-! PROOF. The frame of every instruction: O24. -/

namespace Sys2Proof.Machine

/-- Every update an execute step makes is within what the instruction lists. -/
theorem exec_onlyChanges {i : Instr} {s t : State} (h : exec i s = .next t) :
    OnlyChanges i.writesReg i.partsWritten s t := by
  cases i with
  | cls => obtain rfl := Host.Outcome.next.inj h; exact .setFb (.head _)
  | ret =>
    obtain ⟨-, rfl⟩ | ⟨-, a, -, rfl⟩ := exec_ret_eq_next_iff.1 h
    · exact .raise (.tail _ (.tail _ (.head _)))
    · exact .popTo (.head _) (.tail _ (.head _))
  | sys _ => obtain rfl := Host.Outcome.next.inj h; exact .refl
  | jp _ | jpV0 _ | seImm _ _ | sneImm _ _ | seReg _ _ | sneReg _ _ =>
    obtain rfl := Host.Outcome.next.inj h; exact .setPc (.head _)
  | call nnn =>
    obtain ⟨-, rfl⟩ | ⟨-, rfl⟩ := exec_call_eq_next_iff.1 h
    · exact .raise (.tail _ (.tail _ (.head _)))
    · exact .trans (.push (.tail _ (.head _))) (.setPc (.head _))
  | ldImm _ _ | addImm _ _ | ldReg _ _ | orReg _ _ | andReg _ _ | xorReg _ _ | rnd _ _ | ldVxDt _ =>
    obtain rfl := Host.Outcome.next.inj h; exact .setReg rfl
  | addReg _ _ | subReg _ _ | shr _ _ | subnReg _ _ | shl _ _ =>
    obtain rfl := Host.Outcome.next.inj h; exact .setFlagThenReg (.inl rfl) (.inr rfl)
  | ldI _ | addI _ | ldF _ => obtain rfl := Host.Outcome.next.inj h; exact .setIndex (.head _)
  | drw x y n =>
    obtain ⟨a, -, rfl⟩ | ⟨-, rfl⟩ := exec_drw_eq_next_iff.1 h
    · exact .raise (.tail _ (.head _))
    · exact .trans (.setFb (.head _)) (.setReg rfl)
  | skp x =>
    obtain ⟨-, rfl⟩ | ⟨p, -, rfl⟩ := exec_skp_eq_next_iff.1 h
    · exact .raise (.tail _ (.head _))
    · exact .setPc (.head _)
  | sknp x =>
    obtain ⟨-, rfl⟩ | ⟨p, -, rfl⟩ := exec_sknp_eq_next_iff.1 h
    · exact .raise (.tail _ (.head _))
    · exact .setPc (.head _)
  | ldVxK _ => obtain rfl := Host.Outcome.next.inj h; exact .keyWait rfl (.head _)
  | ldDtVx _ => obtain rfl := Host.Outcome.next.inj h; exact .setDt (.head _)
  | ldStVx _ => obtain rfl := Host.Outcome.next.inj h; exact .setSt (.head _)
  | ldB x =>
    obtain ⟨a, -, rfl⟩ | ⟨-, rfl⟩ := exec_ldB_eq_next_iff.1 h
    · exact .raise (.tail _ (.head _))
    · exact .store (.head _)
  | storeRegs x =>
    obtain ⟨a, -, rfl⟩ | ⟨-, rfl⟩ := exec_storeRegs_eq_next_iff.1 h
    · exact .raise (.tail _ (.head _))
    · exact .store (.head _)
  | loadRegs x =>
    obtain ⟨a, -, rfl⟩ | ⟨-, rfl⟩ := exec_loadRegs_eq_next_iff.1 h
    · exact .raise (.head _)
    · refine .loadRegs fun r hr => Fin.le_def.2 ?_
      rw [Memory.length_readList] at hr
      omega

/-- Settles O24: the frame from the updates, and a changed `FAULT` from `exec_fault_or_raise`. -/
theorem frameOfEveryInstruction : Obligations.FrameOfEveryInstruction := by
  intro i s t h
  refine ⟨exec_onlyChanges h, fun hne => ?_⟩
  obtain heq | ⟨k, rfl⟩ := exec_fault_or_raise h
  · exact absurd heq hne
  · rfl

end Sys2Proof.Machine
end

section
/-! PROOF. What writes `PC`: O25. -/

namespace Sys2Proof.Machine

/-- A skip leaves `PC` or adds 2. 41_flow R120. -/
theorem State.skipIf_pc_cases (s : State) (c : Bool) : (s.skipIf c).pc = s.pc ∨ (s.skipIf c).pc = s.pc + 2 := by
  cases c
  · exact .inl rfl
  · exact .inr rfl

/-- The jump target of `JP V0,NNN` does not wrap. 41_flow R128. -/
theorem toNat_addrImm_add_byteAddend (nnn : Addr12) (b : Byte) :
    (addrImm nnn + byteAddend b).toNat = nnn.toNat + b.toNat := by
  have := nnn.isLt
  have := b.isLt
  rw [BitVec.toNat_add, toNat_addrImm, toNat_byteAddend]
  omega

/-- Settles O25, by cases on the instruction. -/
theorem whatWritesPc : Obligations.WhatWritesPc := by
  intro i s t h
  cases i with
  | ret =>
    obtain ⟨h0, rfl⟩ | ⟨h0, a, ha, rfl⟩ := exec_ret_eq_next_iff.1 h
    · exact .inr ⟨h0, rfl⟩
    · exact .inl ⟨Nat.pos_of_ne_zero fun hz => h0 (BitVec.eq_of_toNat_eq hz), ha⟩
  | call nnn =>
    obtain ⟨h16, rfl⟩ | ⟨hlt, rfl⟩ := exec_call_eq_next_iff.1 h
    · exact .inr ⟨BitVec.eq_of_toNat_eq h16, rfl⟩
    · exact .inl ⟨hlt, toNat_addrImm nnn⟩
  | jp nnn => obtain rfl := Host.Outcome.next.inj h; exact toNat_addrImm nnn
  | jpV0 nnn => obtain rfl := Host.Outcome.next.inj h; exact toNat_addrImm_add_byteAddend nnn (s.reg 0)
  | seImm _ _ | sneImm _ _ | seReg _ _ | sneReg _ _ =>
    obtain rfl := Host.Outcome.next.inj h; exact s.skipIf_pc_cases _
  | skp x =>
    obtain ⟨-, rfl⟩ | ⟨p, -, rfl⟩ := exec_skp_eq_next_iff.1 h
    · exact .inl rfl
    · exact s.skipIf_pc_cases p
  | sknp x =>
    obtain ⟨-, rfl⟩ | ⟨p, -, rfl⟩ := exec_sknp_eq_next_iff.1 h
    · exact .inl rfl
    · exact s.skipIf_pc_cases !p
  | ldVxK x =>
    obtain rfl := Host.Outcome.next.inj h
    cases hk : leastKey s.keys with
    | none => exact .inr ⟨leastKey_eq_none.1 hk, rfl⟩
    | some k => exact .inl ⟨⟨k, (leastKey_eq_some.1 hk).1⟩, rfl⟩
  | cls | sys _ | ldImm _ _ | addImm _ _ | ldReg _ _ | orReg _ _ | andReg _ _ | xorReg _ _ | addReg _ _
  | subReg _ _ | shr _ _ | subnReg _ _ | shl _ _ | ldI _ | rnd _ _ | drw _ _ _ | ldVxDt _ | ldDtVx _ | ldStVx _
  | addI _ | ldF _ | ldB _ | storeRegs _ | loadRegs _ =>
    exact (exec_onlyChanges h).2 .pc (by simp [Instr.partsWritten])

end Sys2Proof.Machine
end

section
/-! PROOF. No instruction reads `ST`: O29. -/

namespace Sys2Proof.Machine

/-- Every instruction but `LD ST,Vx` runs the same under another `ST` and carries it through: no condition and no
operand of `exec` mentions it. 10_state R27. -/
theorem exec_setSt {i : Instr} {s t : State} (b : Byte) (hi : ∀ x, i ≠ .ldStVx x) (h : exec i s = .next t) :
    exec i (s.setSt b) = .next (t.setSt b) := by
  cases i with
  | ldStVx x => exact absurd rfl (hi x)
  | ret =>
    obtain ⟨h0, rfl⟩ | ⟨h0, a, ha, rfl⟩ := exec_ret_eq_next_iff.1 h
    · exact exec_ret_eq_next_iff.2 (.inl ⟨h0, rfl⟩)
    · exact exec_ret_eq_next_iff.2 (.inr ⟨h0, a, ha, rfl⟩)
  | call nnn =>
    obtain ⟨h16, rfl⟩ | ⟨hlt, rfl⟩ := exec_call_eq_next_iff.1 h
    · exact exec_call_eq_next_iff.2 (.inl ⟨h16, rfl⟩)
    · exact exec_call_eq_next_iff.2 (.inr ⟨hlt, rfl⟩)
  | drw x y n =>
    obtain ⟨a, ha, rfl⟩ | ⟨hok, rfl⟩ := exec_drw_eq_next_iff.1 h
    · exact exec_drw_eq_next_iff.2 (.inl ⟨a, ha, rfl⟩)
    · exact exec_drw_eq_next_iff.2 (.inr ⟨hok, rfl⟩)
  | skp x =>
    obtain ⟨hn, rfl⟩ | ⟨p, hp, rfl⟩ := exec_skp_eq_next_iff.1 h
    · exact exec_skp_eq_next_iff.2 (.inl ⟨hn, rfl⟩)
    · exact exec_skp_eq_next_iff.2 (.inr ⟨p, hp, rfl⟩)
  | sknp x =>
    obtain ⟨hn, rfl⟩ | ⟨p, hp, rfl⟩ := exec_sknp_eq_next_iff.1 h
    · exact exec_sknp_eq_next_iff.2 (.inl ⟨hn, rfl⟩)
    · exact exec_sknp_eq_next_iff.2 (.inr ⟨p, hp, rfl⟩)
  | ldB x =>
    obtain ⟨a, ha, rfl⟩ | ⟨hok, rfl⟩ := exec_ldB_eq_next_iff.1 h
    · exact exec_ldB_eq_next_iff.2 (.inl ⟨a, ha, rfl⟩)
    · exact exec_ldB_eq_next_iff.2 (.inr ⟨hok, rfl⟩)
  | storeRegs x =>
    obtain ⟨a, ha, rfl⟩ | ⟨hok, rfl⟩ := exec_storeRegs_eq_next_iff.1 h
    · exact exec_storeRegs_eq_next_iff.2 (.inl ⟨a, ha, rfl⟩)
    · exact exec_storeRegs_eq_next_iff.2 (.inr ⟨hok, rfl⟩)
  | loadRegs x =>
    obtain ⟨a, ha, rfl⟩ | ⟨hok, rfl⟩ := exec_loadRegs_eq_next_iff.1 h
    · exact exec_loadRegs_eq_next_iff.2 (.inl ⟨a, ha, rfl⟩)
    · exact exec_loadRegs_eq_next_iff.2 (.inr ⟨hok, rfl⟩)
  | _ => obtain rfl := Host.Outcome.next.inj h; rfl

/-- Settles O29: `exec_setSt`, and the later of two writes of `ST` is what remains. -/
theorem soundTimerNeverRead : Obligations.SoundTimerNeverRead := by
  intro i s t b h
  refine ⟨fun hi => exec_setSt b hi h, ?_⟩
  rintro ⟨x, rfl⟩
  obtain rfl := Host.Outcome.next.inj h
  rfl

end Sys2Proof.Machine
end

section
/-! PROOF. `fb_out` is row-major: O22. -/

namespace Sys2Proof.Machine

theorem State.fbOut_eq_flatten (s : State) : s.fbOut = s.fb.flatten.toList := by
  simp [State.fbOut, Vector.flatten, Vector.toList, List.flatMap_def, Function.comp_def]

/-- Settles O22: the port is the flattened framebuffer, whose cell `k` is cell (k mod 64, k div 64). -/
theorem framebufferPortIsRowMajor : Obligations.FramebufferPortIsRowMajor := by
  intro s
  rw [State.fbOut_eq_flatten]
  refine ⟨Vector.length_toList, fun y x => ?_⟩
  have hk : 64 * y.val + x.val < 32 * 64 := by omega
  have hy : (64 * y.val + x.val) / 64 = y.val := by omega
  have hx : (64 * y.val + x.val) % 64 = x.val := by omega
  rw [Vector.getElem?_toList, Vector.getElem?_flatten, dif_pos hk]
  simp only [hy, hx, Framebuffer.cell]

end Sys2Proof.Machine
end

section
/-! PROOF. The invariant, part by part: the stack, `PC` and memory through an execute step. -/

namespace Sys2Proof.Machine

/-- The part of `State.Inv` about the stack. 10_state R26, 41_flow R121. -/
def State.StackLegal (s : State) : Prop :=
  s.sp.toNat ≤ 16 ∧ ∀ k : Fin 16, k.val < s.sp.toNat → 2 ≤ s.stack[k.val].toNat ∧ s.stack[k.val].toNat ≤ 0x1000

theorem State.Inv.stackLegal {s : State} (h : s.Inv) : s.StackLegal := ⟨h.sp_legal, h.stack_live⟩

/-- Pushing the address of a next instruction makes one more live entry. 41_flow R123. -/
theorem State.StackLegal.push {s : State} {a : Word} (h : s.StackLegal) (hsp : s.sp.toNat < 16)
    (hlo : 2 ≤ a.toNat) (hhi : a.toNat ≤ 0x1000) : (s.push a).StackLegal := by
  have hsp' : (s.push a).sp.toNat = s.sp.toNat + 1 := by
    rw [State.push_sp, BitVec.toNat_add, show (1 : Byte).toNat = 1 from rfl]
    omega
  refine ⟨by omega, fun k hk => ?_⟩
  rw [hsp'] at hk
  simp only [State.push_stack, Vector.getElem_setIfInBounds]
  split
  · exact ⟨hlo, hhi⟩
  · exact h.2 k (by omega)

/-- Popping leaves the entries below live. 41_flow R121. -/
theorem State.StackLegal.popTo {s : State} {a : Word} (h : s.StackLegal) (h0 : s.sp ≠ 0) :
    (s.popTo a).StackLegal := by
  obtain ⟨hsp, hlive⟩ := h
  have hle : (s.popTo a).sp.toNat ≤ s.sp.toNat := by
    rw [State.popTo_sp]
    bv_omega
  exact ⟨hle.trans hsp, fun k hk => hlive k (hk.trans_le hle)⟩

/-- The entry `RET` pops is live, so it is a `PC` that followed a successful fetch. 41_flow R121. -/
theorem State.StackLegal.top_le {s : State} {a : Word} (h : s.StackLegal) (h0 : 0 < s.sp.toNat)
    (ha : s.stack[s.sp.toNat - 1]? = some a) : a.toNat ≤ 0x1000 := by
  obtain ⟨hk, rfl⟩ := Vector.getElem?_eq_some_iff.1 ha
  exact (h.2 ⟨s.sp.toNat - 1, hk⟩ (Nat.sub_lt h0 Nat.one_pos)).2

/-- Only `CALL` and `RET` touch the stack, and both keep it legal. 10_state R26. -/
theorem exec_stackLegal {i : Instr} {s t : State} (hs : s.StackLegal) (hlo : 2 ≤ s.pc.toNat)
    (hhi : s.pc.toNat ≤ 0x1000) (h : exec i s = .next t) : t.StackLegal := by
  cases i with
  | ret =>
    obtain ⟨-, rfl⟩ | ⟨h0, a, -, rfl⟩ := exec_ret_eq_next_iff.1 h
    · exact hs
    · exact hs.popTo h0
  | call nnn =>
    obtain ⟨-, rfl⟩ | ⟨hlt, rfl⟩ := exec_call_eq_next_iff.1 h
    · exact hs
    · exact hs.push hlt hlo hhi
  | _ =>
    obtain ⟨hsp, hst⟩ : t.sp = s.sp ∧ t.stack = s.stack :=
      (exec_onlyChanges h).2 .stack (by simp [Instr.partsWritten])
    rwa [State.StackLegal, hsp, hst]

/-- The largest `PC` an execute step leaves is that of `JP V0,0xFFF` with `V[0] = 0xFF`. 10_state R24, 41_flow R128. -/
theorem exec_pc_le {i : Instr} {s t : State} (hs : s.StackLegal) (hlo : 2 ≤ s.pc.toNat)
    (hhi : s.pc.toNat ≤ 0x1000) (h : exec i s = .next t) : t.pc.toNat ≤ 0x10FE := by
  have hpc := whatWritesPc i s t h
  cases i with
  | jp nnn => have := nnn.isLt; simp only at hpc; omega
  | jpV0 nnn => have := nnn.isLt; have := (s.reg 0).isLt; simp only at hpc; omega
  | call nnn =>
    obtain ⟨-, hpc⟩ | ⟨-, hpc⟩ := hpc
    · have := nnn.isLt; omega
    · rw [hpc]; omega
  | ret =>
    obtain ⟨h0, ha⟩ | ⟨-, hpc⟩ := hpc
    · exact (hs.top_le h0 ha).trans (by decide)
    · rw [hpc]; omega
  | ldVxK x => obtain ⟨-, hpc⟩ | ⟨-, hpc⟩ := hpc <;> rw [hpc] <;> bv_omega
  | seImm _ _ | sneImm _ _ | seReg _ _ | sneReg _ _ | skp _ | sknp _ =>
    obtain hpc | hpc := hpc <;> rw [hpc] <;> bv_omega
  | _ => simp only at hpc; rw [hpc]; omega

/-- Memory after an execute step: as it was, or with bytes stored from `I` on that all lie inside it.
20_memory R50, R56. -/
theorem exec_mem_cases {i : Instr} {s t : State} (h : exec i s = .next t) :
    t.mem = s.mem ∨ ∃ bs : List Byte, s.base + bs.length ≤ 0x1000 ∧ t.mem = s.mem.writeList s.base bs := by
  cases i with
  | ldB x =>
    obtain ⟨a, -, rfl⟩ | ⟨hok, rfl⟩ := exec_ldB_eq_next_iff.1 h
    · exact .inl rfl
    · exact .inr ⟨decimalDigits (s.reg x), (outOfBounds_eq_none.1 hok).resolve_left (by decide), rfl⟩
  | storeRegs x =>
    obtain ⟨a, -, rfl⟩ | ⟨hok, rfl⟩ := exec_storeRegs_eq_next_iff.1 h
    · exact .inl rfl
    · refine .inr ⟨s.regsUpTo x, ?_, rfl⟩
      rw [State.length_regsUpTo]
      exact (outOfBounds_eq_none.1 hok).resolve_left (Nat.succ_ne_zero _)
  | ret => obtain ⟨-, rfl⟩ | ⟨-, a, -, rfl⟩ := exec_ret_eq_next_iff.1 h <;> exact .inl rfl
  | call nnn => obtain ⟨-, rfl⟩ | ⟨-, rfl⟩ := exec_call_eq_next_iff.1 h <;> exact .inl rfl
  | drw x y n => obtain ⟨a, -, rfl⟩ | ⟨-, rfl⟩ := exec_drw_eq_next_iff.1 h <;> exact .inl rfl
  | skp x => obtain ⟨-, rfl⟩ | ⟨p, -, rfl⟩ := exec_skp_eq_next_iff.1 h <;> exact .inl rfl
  | sknp x => obtain ⟨-, rfl⟩ | ⟨p, -, rfl⟩ := exec_sknp_eq_next_iff.1 h <;> exact .inl rfl
  | loadRegs x => obtain ⟨a, -, rfl⟩ | ⟨-, rfl⟩ := exec_loadRegs_eq_next_iff.1 h <;> exact .inl rfl
  | _ => obtain rfl := Host.Outcome.next.inj h; exact .inl rfl

end Sys2Proof.Machine
end

section
/-! PROOF. Every step keeps the invariant: O18. -/

namespace Sys2Proof.Machine

/-- A cycle that raises keeps the invariant when the record names the `PC` before the cycle. 60_exceptions R224. -/
theorem State.Inv.halt {s : State} {r : FaultRecord} (hs : s.Inv) (hr : r.pc = s.pc) :
    { s with fault := some r }.Inv :=
  { hs with fault_pc := fun _ h => Option.some.inj h ▸ hr }

/-- After a successful fetch `PC` is 2 to 0x1000. 40_cycle R102. -/
theorem State.At.toNat_advance_pc {s : State} {w : Word} (h : s.At w) :
    (s.advance w).pc.toNat = s.pc.toNat + 2 := by
  have := h.pc_le
  rw [State.advance_pc]
  bv_omega

theorem State.Inv.advance {s : State} {w : Word} (hs : s.Inv) (h : s.At w) : (s.advance w).Inv where
  sp_legal := hs.sp_legal
  pc_bound := by have := h.pc_le; rw [h.toNat_advance_pc]; omega
  stack_live := hs.stack_live
  mem_wf := hs.mem_wf
  mem_range := hs.mem_range
  fault_pc r hr := by rw [State.advance_fault, h.running] at hr; cases hr

/-- An execute step that raises nothing keeps the invariant. -/
theorem State.Inv.exec {i : Instr} {s t : State} (hs : s.Inv) (hlo : 2 ≤ s.pc.toNat) (hhi : s.pc.toNat ≤ 0x1000)
    (h : exec i s = .next t) (hr : t.running) : t.Inv where
  sp_legal := (exec_stackLegal hs.stackLegal hlo hhi h).1
  pc_bound := exec_pc_le hs.stackLegal hlo hhi h
  stack_live := (exec_stackLegal hs.stackLegal hlo hhi h).2
  mem_wf := by
    obtain hm | ⟨bs, -, hm⟩ := exec_mem_cases h
    · exact hm ▸ hs.mem_wf
    · exact hm ▸ Memory.wf_writeList bs s.base hs.mem_wf
  mem_range := by
    obtain hm | ⟨bs, hlen, hm⟩ := exec_mem_cases h
    · exact hm ▸ hs.mem_range
    · exact hm ▸ Memory.inRange_writeList bs hlen hs.mem_range
  fault_pc r hf := by rw [hr] at hf; cases hf

/-- The timers and the host's input are no part of the invariant. 40_cycle R108. -/
theorem State.Inv.tick_takeInput {s : State} (hs : s.Inv) : s.tick.takeInput.Inv := { hs with }

/-- A fault raised in the execute step names the address of the instruction. 60_exceptions R224. -/
theorem exec_advance_fault_pc {i : Instr} {s t : State} {w : Word} {r : FaultRecord} (hr : s.running)
    (h : exec i (s.advance w) = .next t) (hf : t.fault = some r) : r.pc = s.pc := by
  obtain heq | ⟨k, rfl⟩ := exec_fault_or_raise h
  · rw [heq, State.advance_fault, hr] at hf
    cases hf
  · obtain rfl := Option.some.inj hf
    exact BitVec.add_sub_cancel s.pc 2

/-- Settles O18: the four things a step can be (`step_next_cases`), the last of them the execute step and the end of
its cycle. -/
theorem invariantKeptByStep : Obligations.InvariantKeptByStep := by
  intro s t hs h
  obtain ⟨-, rfl⟩ | ⟨-, -, rfl⟩ | ⟨w, e, hat, -, rfl⟩ | ⟨w, i, u, hat, -, hx, rfl⟩ := step_next_cases h
  · exact hs
  · exact hs.halt rfl
  · exact (hs.advance hat).tick_takeInput
  · cases hf : u.fault with
    | some r =>
      rw [State.endCycle_fault hf]
      exact hs.halt (exec_advance_fault_pc hat.running hx hf)
    | none =>
      rw [State.endCycle_running hf]
      have hpc := hat.toNat_advance_pc
      have hle := hat.pc_le
      exact ((hs.advance hat).exec (by omega) (by omega) hx hf).tick_takeInput

end Sys2Proof.Machine
end

section
/-! SUPPORT. A cycle that completes: its end leaves the core running exactly when the execute step did, and `IR` holds
the word that was at `PC`. -/

namespace Sys2Proof.Machine

/-- No instruction lists `IR` among what it writes. 10_state R28. -/
theorem instrReg_notMem_partsWritten (i : Instr) : StatePart.instrReg ∉ i.partsWritten := by
  cases i <;> simp [Instr.partsWritten]

/-- The end of a cycle keeps the `FAULT` the execute step left. 40_cycle R108, R109. -/
@[simp] theorem State.endCycle_fault_eq (before after : State) : (before.endCycle after).fault = after.fault := by
  cases hf : after.fault with
  | none => rw [State.endCycle_running hf]; exact hf
  | some r => rw [State.endCycle_fault hf]

/-- The cycle of a decoded instruction that raises nothing. 40_cycle R100, R108. -/
theorem step_of_exec_running {s u : State} {w : Word} {i : Instr} (hat : s.At w) (hd : decodeWord w = .ok i)
    (hx : exec i (s.advance w) = .next u) (hu : u.running) : step s = .next u.tick.takeInput := by
  rw [step_of_at hat, execWord, hd]
  simp only [hx, closeCycle, State.endCycle_running hu]

/-- After a completed cycle `IR` is the word that was at `PC` before it. 40_cycle R100 (1). -/
theorem State.At.ir_of_step {s t : State} (hs : s.running) (h : step s = .next t) (ht : t.running) : s.At t.ir := by
  obtain ⟨hh, -⟩ | ⟨-, -, rfl⟩ | ⟨w, e, hat, -, rfl⟩ | ⟨w, i, u, hat, -, hx, rfl⟩ := step_next_cases h
  · exact absurd hs hh
  · cases ht
  · exact hat
  · have hu : u.running := (s.endCycle_fault_eq u).symm.trans ht
    have hir : u.ir = w := (exec_onlyChanges hx).2 .instrReg (instrReg_notMem_partsWritten i)
    rw [State.endCycle_running hu]
    exact hir ▸ hat

/-- A running core with two bytes in memory at `PC` has the word they make there. 20_memory R51. -/
theorem State.At.of_bytes {s : State} {hi lo : Byte} (hr : s.running) (hpc : s.pc.toNat ≤ 0xFFE)
    (hhi : s.mem.read s.pc.toNat = hi) (hlo : s.mem.read (s.pc.toNat + 1) = lo) : s.At (wordOfBytes hi lo) :=
  State.At.of_fetch hr (State.fetch_eq_ok.2 ⟨hpc, by rw [hhi, hlo]⟩)

end Sys2Proof.Machine
end

section
/-! PROOF. The fetch is big-endian and loads `IR`: O9. -/

namespace Sys2Proof.Machine

/-- Settles O9: the fetch by `State.fetch_eq_ok`, and `IR` because the word in it after the step is one the fetch
gave before it. -/
theorem fetchIsBigEndian : Obligations.FetchIsBigEndian := by
  intro s hpc
  have hw := State.fetch_eq_ok.2 ⟨hpc, rfl⟩
  refine ⟨_, hw, toNat_wordOfBytes .., fun hs t h ht => ?_⟩
  exact Except.ok.inj ((State.At.ir_of_step hs h ht).fetch.symm.trans hw)

end Sys2Proof.Machine
end

section
/-! PROOF. A store over the next instruction is what the next cycle fetches: O52. -/

namespace Sys2Proof.Machine

/-- 30_encoding R74 (6), R80. -/
theorem decodeWord_storeRegs (x : Reg) : decodeWord (formatXK 0xF x 0x55) = .ok (.storeRegs x) := by
  simp [decodeWord, decodeOp, decodeF]

/-- `LD [I],Vx` leaves `V[k]` at `I + k`. 43_index_memory R175. -/
theorem State.read_store_regsUpTo (s : State) {x k : Reg} (a : Nat) (h : k ≤ x) :
    (s.store a (s.regsUpTo x)).mem.read (a + k.val) = s.reg k := by
  have hk : a + k.val < a + (s.regsUpTo x).length := by
    have := Fin.le_def.1 h
    rw [State.length_regsUpTo]
    omega
  rw [State.store_mem, Memory.read_writeList, if_pos ⟨Nat.le_add_right .., hk⟩, Nat.add_sub_cancel_left,
    List.getD_eq_getElem?_getD, s.getElem?_regsUpTo x k h, Option.getD_some]

/-- `LD [I],Vx` whose last byte is in memory stores and raises nothing. 43_index_memory R175. -/
theorem exec_storeRegs_of_le {s : State} {x : Reg} (h : s.base + x.val ≤ 0xFFF) :
    exec (.storeRegs x) s = .next (s.store s.base (s.regsUpTo x)) :=
  exec_storeRegs_eq_next_iff.2 (.inr ⟨outOfBounds_eq_none.2 (.inr (Nat.succ_le_succ h)), rfl⟩)

/-- Registers stored with `I` equal to `PC` put `V[0]`, `V[1]` where the next fetch reads. 20_memory R59, R60. -/
theorem State.At.store_regsUpTo {s : State} {x : Reg} (hr : s.running) (hI : s.index = s.pc) (hx : 1 ≤ x.val)
    (hle : s.base + x.val ≤ 0xFFF) :
    (s.store s.base (s.regsUpTo x)).At (wordOfBytes (s.reg 0) (s.reg 1)) := by
  have hpc : s.pc.toNat = s.base := congrArg BitVec.toNat hI.symm
  refine .of_bytes hr (show s.pc.toNat ≤ 0xFFE by omega) ?_ ?_ <;> rw [State.store_pc, hpc]
  · exact s.read_store_regsUpTo (k := 0) s.base (Fin.zero_le x)
  · exact s.read_store_regsUpTo (k := 1) s.base (Fin.le_def.2 hx)

/-- Ticking the timers and going on to the next input leave the word at `PC`. 40_cycle R108. -/
theorem State.At.tick_takeInput {s : State} {w : Word} (h : s.At w) : s.tick.takeInput.At w :=
  ⟨h.running, h.pc_le, h.high, h.low⟩

/-- Settles O52: the step stores at the advanced `PC`, `V[0]` and `V[1]` first, and completes. -/
theorem storedWordIsFetchedNext : Obligations.StoredWordIsFetchedNext := by
  intro x s t hx hat hI hle h
  rw [step_of_exec_running hat (decodeWord_storeRegs x) (exec_storeRegs_of_le hle) hat.running] at h
  obtain rfl := Host.Outcome.next.inj h
  have hstored := State.At.store_regsUpTo (s := s.advance (formatXK 0xF x 0x55)) hat.running hI hx hle
  exact hstored.tick_takeInput

end Sys2Proof.Machine
end

section
/-! SUPPORT. The encoder and the decoder in the fields of a word: a word with a given top digit is made of that digit
and its other fields, and the decoder dispatches on the top digit of each format. -/

namespace Sys2Proof

/-! ## A word from its top digit and its other fields: spec/30_encoding.md R71, R72 -/

variable {w : Word} {op : Fin 16}

theorem formatA_of_opField (h : opField w = op) : formatA (regBits op) (nnnField w) = w :=
  h ▸ formatA_fields w

theorem formatXK_of_opField (h : opField w = op) : formatXK (regBits op) (xField w) (nnField w) = w :=
  h ▸ formatXK_fields w

theorem formatXYN_of_opField (h : opField w = op) :
    formatXYN (regBits op) (xField w) (yField w) (nField w) = w :=
  h ▸ formatXYN_fields w

theorem formatX_of_fields {nn : Byte} (h : opField w = op) (hnn : nnField w = nn) :
    formatXK (regBits op) (xField w) nn = w :=
  hnn ▸ formatXK_of_opField h

theorem formatXY_of_fields {n : Fin 16} (h : opField w = op) (hn : nField w = n) :
    formatXYN (regBits op) (xField w) (yField w) n = w :=
  hn ▸ formatXYN_of_opField h

/-! ## The decoder on each format: R74 (2) -/

@[simp] theorem decodeWord_formatA (op : BitVec 4) (nnn : Addr12) :
    decodeWord (formatA op nnn) = decodeOp op.toFin (formatA op nnn) := by
  rw [decodeWord, opField_formatA]

@[simp] theorem decodeWord_formatXK (op : BitVec 4) (x : Reg) (nn : Byte) :
    decodeWord (formatXK op x nn) = decodeOp op.toFin (formatXK op x nn) := by
  rw [decodeWord, opField_formatXK]

@[simp] theorem decodeWord_formatXYN (op : BitVec 4) (x y : Reg) (n : Fin 16) :
    decodeWord (formatXYN op x y n) = decodeOp op.toFin (formatXYN op x y n) := by
  rw [decodeWord, opField_formatXYN]

/-! ## `SYS` is neither `CLS` nor `RET`: R74 (3) -/

theorem wellFormed_sys {nnn : Addr12} : (Instr.sys nnn).wellFormed = true ↔ nnn ≠ 0x0E0 ∧ nnn ≠ 0x0EE := by
  simp [Instr.wellFormed]

theorem decode0_formatA {nnn : Addr12} (h : (Instr.sys nnn).wellFormed = true) :
    decode0 (formatA 0 nnn) = .sys nnn := by
  obtain ⟨hcls, hret⟩ := wellFormed_sys.1 h
  have hne (a : Addr12) (ha : nnn ≠ a) : formatA 0 nnn ≠ formatA 0 a := fun he =>
    ha (by rw [← nnnField_formatA 0 nnn, he, nnnField_formatA])
  calc decode0 (formatA 0 nnn)
    _ = if formatA 0 nnn = 0x00EE then .ret else .sys (nnnField (formatA 0 nnn)) := if_neg (hne 0x0E0 hcls)
    _ = .sys (nnnField (formatA 0 nnn)) := if_neg (hne 0x0EE hret)
    _ = .sys nnn := by rw [nnnField_formatA]

/-- What the decoder gives for top digit 0 is well formed and encodes back to the word. R74 (3). -/
theorem wellFormed_encode_decode0 (h : opField w = 0) :
    (decode0 w).wellFormed = true ∧ encode (decode0 w) = w := by
  have hw : formatA 0 (nnnField w) = w := formatA_of_opField h
  unfold decode0
  split_ifs with hcls hret
  · exact ⟨rfl, hcls.symm⟩
  · exact ⟨rfl, hret.symm⟩
  · refine ⟨wellFormed_sys.2 ⟨fun he => hcls ?_, fun he => hret ?_⟩, hw⟩ <;> rw [← hw, he] <;> rfl

end Sys2Proof
end

section
/-! PROOF. Encoding, then decoding: O1. -/

namespace Sys2Proof

/-- Every well-formed instruction is decoded from its word. 30_encoding R71, R74, R80. -/
theorem decodeWord_encode {i : Instr} (h : i.wellFormed = true) : decodeWord (encode i) = .ok i := by
  cases i with
  | cls | ret => rfl
  | sys nnn => exact (decodeWord_formatA 0 nnn).trans (congrArg Except.ok (decode0_formatA h))
  -- the top digit of `JP` has to stay the literal 1, not the cast of one, for `decodeOp` to reduce
  | jp | call | ldI | jpV0 => simp [encode, decodeOp, -Fin.ofNat_eq_cast]
  | seImm | sneImm | ldImm | addImm | rnd => simp [encode, decodeOp]
  | seReg | sneReg | drw => simp [encode, decodeOp]
  | ldReg | orReg | andReg | xorReg | addReg | subReg | shr | subnReg | shl => simp [encode, decodeOp, decode8]
  | skp | sknp => simp [encode, decodeOp, decodeE]
  | ldVxDt | ldVxK | ldDtVx | ldStVx | addI | ldF | ldB | storeRegs | loadRegs =>
    simp [encode, decodeOp, decodeF]

/-- A word in front of a byte stream is decoded as that word. 30_encoding R70. -/
theorem decodeBytes_bytesOfWord_append {w : Word} {i : Instr} (rest : List Byte) (h : decodeWord w = .ok i) :
    decodeBytes (bytesOfWord w ++ rest) = .ok (i, rest) := by
  simp [bytesOfWord, decodeBytes, h]

/-- Settles O1: `decodeWord_encode`, case by case along the formats, and the same word in front of a stream. -/
theorem encodeThenDecode : Obligations.EncodeThenDecode := fun _ rest h =>
  ⟨decodeWord_encode h, decodeBytes_bytesOfWord_append rest (decodeWord_encode h)⟩

end Sys2Proof
end

section
/-! PROOF. Decoding, then encoding: O2. The decoder's parts are taken one by one, each on a word with the top digit
that leads to it. -/

namespace Sys2Proof

variable {w : Word} {i : Instr}

/-- 30_encoding R74 (5). -/
theorem wellFormed_encode_of_decode8 {n : Fin 16} (hop : opField w = 0x8) (hn : nField w = n)
    (h : decode8 n w = .ok i) : i.wellFormed = true ∧ encode i = w := by
  match n with
  | 0x0 | 0x1 | 0x2 | 0x3 | 0x4 | 0x5 | 0x6 | 0x7 | 0xE =>
    obtain rfl := Except.ok.inj h
    exact ⟨rfl, formatXY_of_fields hop hn⟩
  | 0x8 | 0x9 | 0xA | 0xB | 0xC | 0xD | 0xF => cases h
  | ⟨k + 16, hk⟩ => omega

/-- 30_encoding R74 (6). -/
theorem wellFormed_encode_of_decodeE (hop : opField w = 0xE) (h : decodeE w = .ok i) :
    i.wellFormed = true ∧ encode i = w := by
  unfold decodeE at h
  split_ifs at h with hskp hsknp <;> obtain rfl := Except.ok.inj h
  · exact ⟨rfl, formatX_of_fields hop hskp⟩
  · exact ⟨rfl, formatX_of_fields hop hsknp⟩

/-- 30_encoding R74 (6). -/
theorem wellFormed_encode_of_decodeF (hop : opField w = 0xF) (h : decodeF w = .ok i) :
    i.wellFormed = true ∧ encode i = w := by
  unfold decodeF at h
  split_ifs at h
  all_goals
    obtain rfl := Except.ok.inj h
    exact ⟨rfl, formatX_of_fields hop ‹_›⟩

/-- What the decoder gives is well formed and encodes back to the word. 30_encoding R74. -/
theorem wellFormed_encode_of_decodeOp {op : Fin 16} (hop : opField w = op) (h : decodeOp op w = .ok i) :
    i.wellFormed = true ∧ encode i = w := by
  match op with
  | 0x0 =>
    obtain rfl := Except.ok.inj h
    exact wellFormed_encode_decode0 hop
  | 0x1 | 0x2 | 0xA | 0xB =>
    obtain rfl := Except.ok.inj h
    exact ⟨rfl, formatA_of_opField hop⟩
  | 0x3 | 0x4 | 0x6 | 0x7 | 0xC =>
    obtain rfl := Except.ok.inj h
    exact ⟨rfl, formatXK_of_opField hop⟩
  | 0x5 | 0x9 =>
    unfold decodeOp at h
    split_ifs at h with hn
    obtain rfl := Except.ok.inj h
    exact ⟨rfl, formatXY_of_fields hop hn⟩
  | 0x8 => exact wellFormed_encode_of_decode8 hop rfl h
  | 0xD =>
    obtain rfl := Except.ok.inj h
    exact ⟨rfl, formatXYN_of_opField hop⟩
  | 0xE => exact wellFormed_encode_of_decodeE hop h
  | 0xF => exact wellFormed_encode_of_decodeF hop h
  | ⟨k + 16, hk⟩ => omega

/-- The decoder and the encoder are inverse to each other on the well-formed instructions. 30_encoding R74. -/
theorem decodeWord_eq_ok_iff : decodeWord w = .ok i ↔ i.wellFormed = true ∧ encode i = w := by
  refine ⟨wellFormed_encode_of_decodeOp rfl, ?_⟩
  rintro ⟨hi, rfl⟩
  exact decodeWord_encode hi

/-- Settles O2: `wellFormed_encode_of_decodeOp`, which takes the top digits one by one. -/
theorem decodeThenEncode : Obligations.DecodeThenEncode := fun _ _ => wellFormed_encode_of_decodeOp rfl

end Sys2Proof
end

section
/-! SUPPORT. Which words the decoder rejects, by their fields. -/

namespace Sys2Proof

variable {w : Word} {e : DecodeError}

/-- 30_encoding R74 (5). -/
theorem decode8_eq_error_iff {n : Fin 16} : decode8 n w = .error e ↔
    e = .unrecognised w ∧ n ∈ [0x8, 0x9, 0xA, 0xB, 0xC, 0xD, 0xF] := by
  match n with
  | 0x0 | 0x1 | 0x2 | 0x3 | 0x4 | 0x5 | 0x6 | 0x7 | 0xE => simp [decode8]
  | 0x8 | 0x9 | 0xA | 0xB | 0xC | 0xD | 0xF => simp [decode8, eq_comm (a := e)]
  | ⟨k + 16, hk⟩ => omega

/-- 30_encoding R74 (6). -/
theorem decodeE_eq_error_iff : decodeE w = .error e ↔ e = .unrecognised w ∧ nnField w ∉ [0x9E, 0xA1] := by
  unfold decodeE
  split_ifs <;> simp_all [eq_comm (a := e)]

/-- 30_encoding R74 (6). -/
theorem decodeF_eq_error_iff : decodeF w = .error e ↔ e = .unrecognised w ∧
    nnField w ∉ [0x07, 0x0A, 0x15, 0x18, 0x1E, 0x29, 0x33, 0x55, 0x65] := by
  unfold decodeF
  split_ifs <;> simp_all [eq_comm (a := e)]

/-- The digits of the unrecognised words. 30_encoding R81. -/
def UnrecognisedFields (op n : Fin 16) (nn : Byte) : Prop :=
  (op = 0x5 ∧ n ≠ 0) ∨ (op = 0x8 ∧ n ∈ [0x8, 0x9, 0xA, 0xB, 0xC, 0xD, 0xF]) ∨ (op = 0x9 ∧ n ≠ 0) ∨
  (op = 0xE ∧ nn ∉ [0x9E, 0xA1]) ∨
  (op = 0xF ∧ nn ∉ [0x07, 0x0A, 0x15, 0x18, 0x1E, 0x29, 0x33, 0x55, 0x65])

/-- The one error on words, and the digits that lead to it. 30_encoding R74 (2) to (7). -/
theorem decodeOp_eq_error_iff {op : Fin 16} : decodeOp op w = .error e ↔
    e = .unrecognised w ∧ UnrecognisedFields op (nField w) (nnField w) := by
  match op with
  | 0x0 | 0x1 | 0x2 | 0x3 | 0x4 | 0x6 | 0x7 | 0xA | 0xB | 0xC | 0xD => simp [decodeOp, UnrecognisedFields]
  | 0x5 | 0x9 => simp [decodeOp, UnrecognisedFields, eq_comm (a := e), and_comm, ite_eq_iff]
  | 0x8 => simp [decodeOp, UnrecognisedFields, decode8_eq_error_iff]
  | 0xE => simp [decodeOp, UnrecognisedFields, decodeE_eq_error_iff]
  | 0xF => simp [decodeOp, UnrecognisedFields, decodeF_eq_error_iff]
  | ⟨k + 16, hk⟩ => omega

theorem decodeWord_eq_error_iff : decodeWord w = .error e ↔
    e = .unrecognised w ∧ UnrecognisedFields (opField w) (nField w) (nnField w) :=
  decodeOp_eq_error_iff

/-! ## The fields as the numbers of the word's digits: R71 -/

@[simp] theorem val_opField (w : Word) : (opField w).val = w.toNat / 4096 := by
  have hlt : w.toNat / 4096 < 16 := Nat.div_lt_of_lt_mul w.isLt
  simp [opField, Nat.shiftRight_eq_div_pow, Nat.mod_eq_of_lt hlt]

@[simp] theorem val_nField (w : Word) : (nField w).val = w.toNat % 16 := rfl

@[simp] theorem toNat_nnField (w : Word) : (nnField w).toNat = w.toNat % 256 := by simp [nnField]

theorem nnField_mem_iff (w : Word) (l : List Byte) : nnField w ∈ l ↔ w.toNat % 256 ∈ l.map BitVec.toNat := by
  rw [← toNat_nnField, List.mem_map_of_injective fun _ _ => BitVec.eq_of_toNat_eq]

theorem nField_mem_iff (w : Word) (l : List (Fin 16)) : nField w ∈ l ↔ w.toNat % 16 ∈ l.map Fin.val := by
  rw [← val_nField, List.mem_map_of_injective Fin.val_injective]

end Sys2Proof
end

section
/-! PROOF. The unrecognised words by their digits: O4, and sample words: O5. -/

namespace Sys2Proof

/-- Settles O4: `decodeWord_eq_error_iff`, with each field read as the number of the word's digits. -/
theorem unrecognisedWordsAre : Obligations.UnrecognisedWordsAre := by
  intro w
  simp only [decodeWord_eq_error_iff, UnrecognisedFields, nField_mem_iff, nnField_mem_iff, ne_eq, Fin.ext_iff,
    val_opField, val_nField]
  exact and_iff_right trivial

/-- Settles O5: twelve closed words, each decoded. -/
theorem sampleWordsDecode : Obligations.SampleWordsDecode := by
  unfold Obligations.SampleWordsDecode
  decide

end Sys2Proof
end

section
/-! SUPPORT. What a row of the opcode map says of a word it accepts, and which rows can accept one word. -/

namespace Sys2Proof

variable {w : Word} {r r' : OpcodeRow}

theorem OpcodeRow.accepts_iff : r.accepts w = true ↔ w &&& r.mask = r.bits := beq_iff_eq

/-- A word a row accepts has the row's digit wherever the whole digit is in the mask. 30_encoding R80. -/
theorem OpcodeRow.extractLsb'_of_accepts (start len : Nat) (h : r.accepts w = true)
    (hm : r.mask.extractLsb' start len = BitVec.allOnes len) :
    w.extractLsb' start len = r.bits.extractLsb' start len := by
  rw [← accepts_iff.1 h, BitVec.extractLsb'_and, hm, BitVec.and_allOnes]

/-- Every row fixes the top digit. -/
theorem opField_of_accepts (hr : r ∈ opcodeMap) (h : r.accepts w = true) : opField w = opField r.bits := by
  have hm : ∀ r ∈ opcodeMap, r.mask.extractLsb' 12 4 = BitVec.allOnes 4 := by decide
  exact congrArg BitVec.toFin (OpcodeRow.extractLsb'_of_accepts 12 4 h (hm r hr))

/-- The rows with top digit 5, 8 or 9 fix the low digit. -/
theorem nField_of_accepts (hr : r ∈ opcodeMap) (h : r.accepts w = true) (hop : opField w ∈ [0x5, 0x8, 0x9]) :
    nField w = nField r.bits := by
  have hm : ∀ r ∈ opcodeMap, opField r.bits ∈ [0x5, 0x8, 0x9] → r.mask.extractLsb' 0 4 = BitVec.allOnes 4 := by
    decide
  rw [opField_of_accepts hr h] at hop
  exact congrArg BitVec.toFin (OpcodeRow.extractLsb'_of_accepts 0 4 h (hm r hr hop))

/-- The rows with top digit E or F fix the low byte. -/
theorem nnField_of_accepts (hr : r ∈ opcodeMap) (h : r.accepts w = true) (hop : opField w ∈ [0xE, 0xF]) :
    nnField w = nnField r.bits := by
  have hm : ∀ r ∈ opcodeMap, opField r.bits ∈ [0xE, 0xF] → r.mask.extractLsb' 0 8 = BitVec.allOnes 8 := by
    decide
  rw [opField_of_accepts hr h] at hop
  exact OpcodeRow.extractLsb'_of_accepts 0 8 h (hm r hr hop)

/-- A row that accepts a word has the digits by which the word would be unrecognised. 30_encoding R81. -/
theorem UnrecognisedFields.bits (hr : r ∈ opcodeMap) (ha : r.accepts w = true)
    (h : UnrecognisedFields (opField w) (nField w) (nnField w)) :
    UnrecognisedFields (opField r.bits) (nField r.bits) (nnField r.bits) := by
  rw [← opField_of_accepts hr ha]
  have hn := nField_of_accepts hr ha
  have hnn := nnField_of_accepts hr ha
  obtain ⟨hop, h⟩ | ⟨hop, h⟩ | ⟨hop, h⟩ | ⟨hop, h⟩ | ⟨hop, h⟩ := h
  · exact .inl ⟨hop, hn (by simp [hop]) ▸ h⟩
  · exact .inr (.inl ⟨hop, hn (by simp [hop]) ▸ h⟩)
  · exact .inr (.inr (.inl ⟨hop, hn (by simp [hop]) ▸ h⟩))
  · exact .inr (.inr (.inr (.inl ⟨hop, hnn (by simp [hop]) ▸ h⟩)))
  · exact .inr (.inr (.inr (.inr ⟨hop, hnn (by simp [hop]) ▸ h⟩)))

/-- No row accepts an unrecognised word, because no row's own bits are one. 30_encoding R81. -/
theorem firstRow_eq_none_of_unrecognised (h : decodeWord w = .error (.unrecognised w)) : firstRow w = none := by
  have hbits : ∀ r ∈ opcodeMap, decodeWord r.bits ≠ .error (.unrecognised r.bits) := by decide
  refine List.find?_eq_none.2 fun r hr ha => hbits r hr ?_
  exact decodeWord_eq_error_iff.2 ⟨rfl, (decodeWord_eq_error_iff.1 h).2.bits hr ha⟩

/-- Two rows that accept one word agree on the bits both fix. -/
theorem OpcodeRow.bits_and_mask_eq (h : r.accepts w = true) (h' : r'.accepts w = true) :
    r.bits &&& r'.mask = r'.bits &&& r.mask := by
  rw [← accepts_iff.1 h, ← accepts_iff.1 h', BitVec.and_assoc, BitVec.and_assoc, BitVec.and_comm r.mask]

/-- A word other than those of `CLS` and `RET` matches at most one row. 30_encoding R80. -/
theorem eq_of_accepts (hr : r ∈ opcodeMap) (hr' : r' ∈ opcodeMap) (h : r.accepts w = true)
    (h' : r'.accepts w = true) (hcls : w ≠ 0x00E0) (hret : w ≠ 0x00EE) : r = r' := by
  have hfull : ∀ r ∈ opcodeMap, r.mask = 0xFFFF → r.bits = 0x00E0 ∨ r.bits = 0x00EE := by decide
  have hrows : ∀ r ∈ opcodeMap, ∀ r' ∈ opcodeMap, r.mask ≠ 0xFFFF → r'.mask ≠ 0xFFFF →
      r.bits &&& r'.mask = r'.bits &&& r.mask → r = r' := by decide
  have hmask {r} (hr : r ∈ opcodeMap) (h : r.accepts w = true) : r.mask ≠ 0xFFFF := by
    intro hm
    have hw : w = r.bits := by rw [← OpcodeRow.accepts_iff.1 h, hm]; exact BitVec.and_allOnes.symm
    exact (hfull r hr hm).elim (fun hb => hcls (hw.trans hb)) (fun hb => hret (hw.trans hb))
  exact hrows r hr r' hr' (hmask hr h) (hmask hr' h') (OpcodeRow.bits_and_mask_eq h h')

/-- The row that accepts a word is the first, the words of `CLS` and `RET` apart. -/
theorem firstRow_eq_some (hr : r ∈ opcodeMap) (h : r.accepts w = true) (hcls : w ≠ 0x00E0) (hret : w ≠ 0x00EE) :
    firstRow w = some r := by
  obtain ⟨r', hf⟩ : ∃ r', opcodeMap.find? (fun r => r.accepts w) = some r' :=
    Option.isSome_iff_exists.1 (List.find?_isSome.2 ⟨r, hr, h⟩)
  have ha' := List.find?_some hf
  rwa [eq_of_accepts hr (List.mem_of_find?_eq_some hf) h ha' hcls hret]

open Laws.RowMatch in
/-- Every instruction's word is accepted by the instruction's own row. 30_encoding R80. -/
theorem exists_row_accepts_encode : ∀ i, Statement i
  | .cls => cls
  | .ret => ret
  | .sys nnn => sys nnn
  | .jp nnn => jp nnn
  | .call nnn => call nnn
  | .seImm x nn => seImm x nn
  | .sneImm x nn => sneImm x nn
  | .seReg x y => seReg x y
  | .ldImm x nn => ldImm x nn
  | .addImm x nn => addImm x nn
  | .ldReg x y => ldReg x y
  | .orReg x y => orReg x y
  | .andReg x y => andReg x y
  | .xorReg x y => xorReg x y
  | .addReg x y => addReg x y
  | .subReg x y => subReg x y
  | .shr x y => shr x y
  | .subnReg x y => subnReg x y
  | .shl x y => shl x y
  | .sneReg x y => sneReg x y
  | .ldI nnn => ldI nnn
  | .jpV0 nnn => jpV0 nnn
  | .rnd x nn => rnd x nn
  | .drw x y n => drw x y n
  | .skp x => skp x
  | .sknp x => sknp x
  | .ldVxDt x => ldVxDt x
  | .ldVxK x => ldVxK x
  | .ldDtVx x => ldDtVx x
  | .ldStVx x => ldStVx x
  | .addI x => addI x
  | .ldF x => ldF x
  | .ldB x => ldB x
  | .storeRegs x => storeRegs x
  | .loadRegs x => loadRegs x

end Sys2Proof
end

section
/-! PROOF. The decoder and the opcode map: O3. -/

namespace Sys2Proof

variable {w : Word} {i : Instr}

/-- Only the words of `CLS` and `RET` match a second row, that of `SYS`, and it comes later. 30_encoding R80. -/
theorem firstRow_of_decodeWord (h : decodeWord w = .ok i) :
    (firstRow w).map (fun r => r.number) = some i.rowNumber := by
  by_cases hcls : w = 0x00E0
  · obtain rfl : .cls = i := Except.ok.inj (hcls ▸ h)
    rw [hcls]
    rfl
  by_cases hret : w = 0x00EE
  · obtain rfl : .ret = i := Except.ok.inj (hret ▸ h)
    rw [hret]
    rfl
  obtain ⟨-, rfl⟩ := decodeWord_eq_ok_iff.1 h
  obtain ⟨r, hr, hnumber, ha⟩ := exists_row_accepts_encode i
  rw [firstRow_eq_some hr ha hcls hret, Option.map_some, hnumber]

/-- Settles O3: the decoded instruction's own row is the first that accepts the word, and the rows fix the digits
that would make a word unrecognised. -/
theorem decoderFollowsOpcodeMap : Obligations.DecoderFollowsOpcodeMap := by
  intro w
  cases h : decodeWord w with
  | ok i => exact firstRow_of_decodeWord h
  | error e =>
    obtain ⟨rfl, -⟩ := decodeWord_eq_error_iff.1 h
    exact ⟨rfl, firstRow_eq_none_of_unrecognised h⟩

end Sys2Proof
end

section
/-! SUPPORT. The frames of the updates a cycle makes around its execute step. -/

namespace Sys2Proof.Machine

variable {regs : Reg → Prop} {parts : List StatePart} {s : State}

theorem OnlyChanges.advance {w : Word} (hpc : .pc ∈ parts) (hir : .instrReg ∈ parts) :
    OnlyChanges regs parts s (s.advance w) :=
  ⟨fun _ _ => rfl, fun p hp => by cases p <;> simp_all [SamePart]⟩

theorem OnlyChanges.tick (hdt : .delay ∈ parts) (hst : .sound ∈ parts) : OnlyChanges regs parts s s.tick :=
  ⟨fun _ _ => rfl, fun p hp => by cases p <;> simp_all [SamePart]⟩

theorem OnlyChanges.takeInput (h : .hostInputs ∈ parts) : OnlyChanges regs parts s s.takeInput :=
  ⟨fun _ _ => rfl, fun p hp => by cases p <;> simp_all [SamePart]⟩

end Sys2Proof.Machine
end

section
/-! SUPPORT. The execute step of a word, and what the step around it does with its answer. -/

namespace Sys2Proof.Machine

variable {s t u : State} {w : Word} {i : Instr} {e : DecodeError}

/-- 40_cycle R103. -/
theorem execWord_of_ok (hd : decodeWord w = .ok i) : execWord w s = exec i s := by
  rw [execWord, hd]

/-- 40_cycle R106. -/
theorem execWord_of_error (hd : decodeWord w = .error e) : execWord w s = .next s := by
  rw [execWord, hd, execUnrecognised]

/-- A part of the state that the word's instruction does not list is left alone; an unrecognised word lists none. -/
theorem execWord_samePart {p : StatePart} (hp : ∀ i, decodeWord w = .ok i → p ∉ i.partsWritten)
    (h : execWord w s = .next u) : SamePart s u p := by
  cases hd : decodeWord w with
  | ok i =>
    rw [execWord_of_ok hd] at h
    exact (exec_onlyChanges h).2 p (hp i hd)
  | error e =>
    rw [execWord_of_error hd] at h
    obtain rfl := Host.Outcome.next.inj h
    exact (OnlyChanges.refl (regs := noReg)).2 p List.not_mem_nil

/-- A step that raises nothing answers what its execute step left, with the timers ticked and the next input taken.
40_cycle R100, R108. -/
theorem State.At.eq_tick_takeInput_of_step (hat : s.At w) (h : step s = .next t) (ht : t.running) :
    ∃ u, execWord w (s.advance w) = .next u ∧ t = u.tick.takeInput := by
  rw [step_of_at hat] at h
  cases hx : execWord w (s.advance w) with
  | next u =>
    rw [hx] at h
    obtain rfl := Host.Outcome.next.inj h
    exact ⟨u, rfl, State.endCycle_running ((s.endCycle_fault_eq u).symm.trans ht)⟩
  | fault f => rw [hx] at h; cases h
  | refused r => rw [hx] at h; cases h

/-- A step that halts a running core changes `FAULT` only. 40_cycle R109, 60_exceptions R224. -/
theorem eq_set_fault_of_step (hs : s.running) (h : step s = .next t) (ht : t.halted) :
    ∃ r, t = { s with fault := some r } := by
  obtain ⟨hh, -⟩ | ⟨-, -, rfl⟩ | ⟨w, e, hat, -, rfl⟩ | ⟨w, i, u, hat, -, -, rfl⟩ := step_next_cases h
  · exact absurd hs hh
  · exact ⟨_, rfl⟩
  · exact absurd hat.running ht
  · cases hf : u.fault with
    | none => exact absurd ((s.endCycle_fault_eq u).trans hf) ht
    | some r => exact ⟨r, State.endCycle_fault hf⟩

/-- A cycle whose execute step is empty advances `PC`, ticks the timers and takes the next input.
40_cycle R105, R106. -/
theorem State.At.noOpCycle (hat : s.At w) (hx : execWord w (s.advance w) = .next (s.advance w)) :
    ∃ t, step s = .next t ∧ t.running ∧ t.ir = w ∧ t.pc.toNat = s.pc.toNat + 2 ∧
      t.dt.toNat = s.dt.toNat - 1 ∧ t.st.toNat = s.st.toNat - 1 ∧
      OnlyChanges noReg [.pc, .instrReg, .delay, .sound, .hostInputs] s t := by
  have hr : (s.advance w).running := hat.running
  have hstep : step s = .next (s.advance w).tick.takeInput := by
    rw [step_of_at hat, hx, closeCycle, State.endCycle_running hr]
  have hframe : OnlyChanges noReg [.pc, .instrReg, .delay, .sound, .hostInputs] s (s.advance w).tick.takeInput :=
    .trans (.advance (by simp) (by simp)) (.trans (.tick (by simp) (by simp)) (.takeInput (by simp)))
  exact ⟨_, hstep, hr, rfl, hat.toNat_advance_pc, toNat_tickByte s.dt, toNat_tickByte s.st, hframe⟩

end Sys2Proof.Machine
end

section
/-! PROOF. The timers tick once per completed cycle: O14. -/

namespace Sys2Proof.Machine

variable {s u : State} {w : Word}

/-- 10_state R27, 45_keypad_timers R205. -/
theorem delay_mem_partsWritten {i : Instr} : .delay ∈ i.partsWritten ↔ ∃ x, i = .ldDtVx x := by
  cases i <;> simp [Instr.partsWritten]

/-- 10_state R27, 45_keypad_timers R206. -/
theorem sound_mem_partsWritten {i : Instr} : .sound ∈ i.partsWritten ↔ ∃ x, i = .ldStVx x := by
  cases i <;> simp [Instr.partsWritten]

section
variable (h : execWord w (s.advance w) = .next u)
include h

theorem dt_of_execWord_advance (hn : ∀ x, decodeWord w ≠ .ok (.ldDtVx x)) : u.dt = s.dt := by
  refine execWord_samePart (s := s.advance w) (p := .delay) (fun i hd hmem => ?_) h
  obtain ⟨x, rfl⟩ := delay_mem_partsWritten.1 hmem
  exact hn x hd

theorem st_of_execWord_advance (hn : ∀ x, decodeWord w ≠ .ok (.ldStVx x)) : u.st = s.st := by
  refine execWord_samePart (s := s.advance w) (p := .sound) (fun i hd hmem => ?_) h
  obtain ⟨x, rfl⟩ := sound_mem_partsWritten.1 hmem
  exact hn x hd

/-- 45_keypad_timers R204. -/
theorem reg_of_execWord_ldVxDt {x : Reg} (hd : decodeWord w = .ok (.ldVxDt x)) : u.reg x = s.dt := by
  rw [execWord_of_ok hd] at h
  obtain rfl := Host.Outcome.next.inj h
  exact State.reg_setReg_self ..

/-- 45_keypad_timers R205. -/
theorem dt_of_execWord_ldDtVx {x : Reg} (hd : decodeWord w = .ok (.ldDtVx x)) : u.dt = s.reg x := by
  rw [execWord_of_ok hd] at h
  obtain rfl := Host.Outcome.next.inj h
  rfl

/-- 45_keypad_timers R206. -/
theorem st_of_execWord_ldStVx {x : Reg} (hd : decodeWord w = .ok (.ldStVx x)) : u.st = s.reg x := by
  rw [execWord_of_ok hd] at h
  obtain rfl := Host.Outcome.next.inj h
  rfl

end

/-- A timer's tick on a byte known by another name. 40_cycle R108. -/
theorem toNat_tickByte_of_eq {a b : Byte} (h : a = b) : (tickByte a).toNat = b.toNat - 1 :=
  h ▸ toNat_tickByte a

/-- Settles O14: a halted step changes nothing, a raising one only `FAULT`, and a completed one ticks the timers the
execute step of its word left. -/
theorem timersTickOncePerCycle : Obligations.TimersTickOncePerCycle := by
  intro s t h
  refine ⟨fun hs => ?_, fun hs ht => ?_, fun w hat ht => ?_⟩
  · obtain rfl := Host.Outcome.next.inj ((step_of_halted hs).symm.trans h)
    exact ⟨rfl, rfl⟩
  · obtain ⟨r, rfl⟩ := eq_set_fault_of_step hs h ht
    exact ⟨rfl, rfl⟩
  · obtain ⟨u, hu, rfl⟩ := hat.eq_tick_takeInput_of_step h ht
    exact ⟨fun x hd => reg_of_execWord_ldVxDt hu hd,
      fun x hd => toNat_tickByte_of_eq (dt_of_execWord_ldDtVx hu hd),
      fun hn => toNat_tickByte_of_eq (dt_of_execWord_advance hu hn),
      fun x hd => toNat_tickByte_of_eq (st_of_execWord_ldStVx hu hd),
      fun hn => toNat_tickByte_of_eq (st_of_execWord_advance hu hn)⟩

end Sys2Proof.Machine
end

section
/-! PROOF. The cycle of an unrecognised word: O15. -/

namespace Sys2Proof.Machine

/-- A word that matches no row is rejected. 30_encoding R80, R81. -/
theorem decodeWord_of_firstRow_eq_none {w : Word} (h : firstRow w = none) :
    decodeWord w = .error (.unrecognised w) := by
  cases hd : decodeWord w with
  | ok i =>
    have hrow := firstRow_of_decodeWord hd
    rw [h] at hrow
    cases hrow
  | error e => rw [(decodeWord_eq_error_iff.1 hd).1]

/-- Settles O15: the decoder rejects the word, so the execute step is empty. -/
theorem unrecognisedWordIsNoOp : Obligations.UnrecognisedWordIsNoOp := fun _ _ hat hrow =>
  hat.noOpCycle (execWord_of_error (decodeWord_of_firstRow_eq_none hrow))

end Sys2Proof.Machine
end

section
/-! PROOF. Which instructions see the host's input: O27, O28. -/

namespace Sys2Proof.Machine

/-- An execute step sees no more of the cycle's input than its instruction reads: under another input with the same
`keys` for the three key forms and the same `rnd` for `RND` it does the same, and carries the input through.
10_state R39, R40, 40_cycle R110. -/
theorem exec_supply {i : Instr} {s t : State} {keys : Keys} {r : Byte}
    (hkeys : ∀ x, i = .skp x ∨ i = .sknp x ∨ i = .ldVxK x → keys = s.keys)
    (hrnd : ∀ x nn, i = .rnd x nn → r = s.rnd) (h : exec i s = .next t) :
    exec i (s.supply keys r) = .next (t.supply keys r) := by
  cases i with
  | rnd x nn =>
    obtain rfl := hrnd x nn rfl
    obtain rfl := Host.Outcome.next.inj h
    rfl
  | ldVxK x =>
    obtain rfl := hkeys x (.inr (.inr rfl))
    obtain rfl := Host.Outcome.next.inj h
    rfl
  | skp x =>
    obtain rfl := hkeys x (.inl rfl)
    obtain ⟨hn, rfl⟩ | ⟨p, hp, rfl⟩ := exec_skp_eq_next_iff.1 h
    · exact exec_skp_eq_next_iff.2 (.inl ⟨hn, rfl⟩)
    · exact exec_skp_eq_next_iff.2 (.inr ⟨p, hp, rfl⟩)
  | sknp x =>
    obtain rfl := hkeys x (.inr (.inl rfl))
    obtain ⟨hn, rfl⟩ | ⟨p, hp, rfl⟩ := exec_sknp_eq_next_iff.1 h
    · exact exec_sknp_eq_next_iff.2 (.inl ⟨hn, rfl⟩)
    · exact exec_sknp_eq_next_iff.2 (.inr ⟨p, hp, rfl⟩)
  | ret =>
    obtain ⟨h0, rfl⟩ | ⟨h0, a, ha, rfl⟩ := exec_ret_eq_next_iff.1 h
    · exact exec_ret_eq_next_iff.2 (.inl ⟨h0, rfl⟩)
    · exact exec_ret_eq_next_iff.2 (.inr ⟨h0, a, ha, rfl⟩)
  | call nnn =>
    obtain ⟨h16, rfl⟩ | ⟨hlt, rfl⟩ := exec_call_eq_next_iff.1 h
    · exact exec_call_eq_next_iff.2 (.inl ⟨h16, rfl⟩)
    · exact exec_call_eq_next_iff.2 (.inr ⟨hlt, rfl⟩)
  | drw x y n =>
    obtain ⟨a, ha, rfl⟩ | ⟨hok, rfl⟩ := exec_drw_eq_next_iff.1 h
    · exact exec_drw_eq_next_iff.2 (.inl ⟨a, ha, rfl⟩)
    · exact exec_drw_eq_next_iff.2 (.inr ⟨hok, rfl⟩)
  | ldB x =>
    obtain ⟨a, ha, rfl⟩ | ⟨hok, rfl⟩ := exec_ldB_eq_next_iff.1 h
    · exact exec_ldB_eq_next_iff.2 (.inl ⟨a, ha, rfl⟩)
    · exact exec_ldB_eq_next_iff.2 (.inr ⟨hok, rfl⟩)
  | storeRegs x =>
    obtain ⟨a, ha, rfl⟩ | ⟨hok, rfl⟩ := exec_storeRegs_eq_next_iff.1 h
    · exact exec_storeRegs_eq_next_iff.2 (.inl ⟨a, ha, rfl⟩)
    · exact exec_storeRegs_eq_next_iff.2 (.inr ⟨hok, rfl⟩)
  | loadRegs x =>
    obtain ⟨a, ha, rfl⟩ | ⟨hok, rfl⟩ := exec_loadRegs_eq_next_iff.1 h
    · exact exec_loadRegs_eq_next_iff.2 (.inl ⟨a, ha, rfl⟩)
    · exact exec_loadRegs_eq_next_iff.2 (.inr ⟨hok, rfl⟩)
  | _ => obtain rfl := Host.Outcome.next.inj h; rfl

/-- Settles O27: `exec_supply` under the same `keys`. -/
theorem randomSeenOnlyByRnd : Obligations.RandomSeenOnlyByRnd := fun _ s _ keys r _ hi h =>
  exec_supply (s := s.supply keys r) (fun _ _ => rfl) (fun x nn he => absurd he (hi x nn)) h

/-- Settles O28: `exec_supply` under the same `rnd`. -/
theorem keysSeenOnlyByKeyInstructions : Obligations.KeysSeenOnlyByKeyInstructions := by
  intro i s t keys keys' r hi h
  refine exec_supply (s := s.supply keys r) (fun x he => ?_) (fun _ _ _ => rfl) h
  obtain ⟨hskp, hsknp, hwait⟩ := hi x
  obtain he | he | he := he
  · exact absurd he hskp
  · exact absurd he hsknp
  · exact absurd he hwait

end Sys2Proof.Machine
end

section
/-! PROOF. The parts of a cycle: O6, O7, O8. -/

namespace Sys2Proof.Machine

/-- Settles O6: `step_of_at`, with the execute step of a decoded and of an unrecognised word. -/
theorem stepRunsDecodedInstruction : Obligations.StepRunsDecodedInstruction := by
  intro s w hat
  refine ⟨fun i hd => ?_, fun e hd => ?_⟩
  · rw [step_of_at hat, execWord_of_ok hd]
    cases exec i (s.advance w) <;> rfl
  · rw [step_of_at hat, execWord_of_error hd, closeCycle]

/-- Settles O7: the sum in 16 bits, which does not wrap below 0x1000. -/
theorem advanceLoadsIrAndMovesPc : Obligations.AdvanceLoadsIrAndMovesPc := by
  intro s w
  have hpc : (s.advance w).pc.toNat = (s.pc.toNat + 2) % 65536 := BitVec.toNat_add ..
  refine ⟨rfl, hpc, fun hle => ?_, .advance (by simp) (by simp)⟩
  omega

/-- Settles O8: `State.endCycle_running` and `State.endCycle_fault`. -/
theorem cycleEndCommitsOrDiscards : Obligations.CycleEndCommitsOrDiscards := by
  intro before after
  refine ⟨fun hr => ?_, fun r => State.endCycle_fault⟩
  rw [State.endCycle_running hr]
  exact ⟨toNat_tickByte _, toNat_tickByte _, rfl, rfl, .trans (.tick (by simp) (by simp)) (.takeInput (by simp))⟩

end Sys2Proof.Machine
end

section
/-! SUPPORT. A skip: `PC` by the condition it tests, and a frame that can drop a part found to be the same. -/

namespace Sys2Proof.Machine

variable {s t : State} {w : Word} {c : Bool} {p : Prop} [Decidable p]

/-- The skip's `PC` by the proposition its Boolean decides. 41_flow R120. -/
theorem State.skipIf_pc_of_iff (s : State) (hc : c = true ↔ p) :
    (s.skipIf c).pc = if p then s.pc + 2 else s.pc :=
  (s.skipIf_pc c).trans (if_congr hc rfl rfl)

/-- The `PC` of a complementary skip, written by the condition under which it does not skip. 41_flow R125, R127. -/
theorem State.skipIf_pc_of_iff_not (s : State) (hc : c = true ↔ ¬ p) :
    (s.skipIf c).pc = if p then s.pc else s.pc + 2 :=
  (s.skipIf_pc_of_iff hc).trans (ite_not ..)

/-- A skip after a successful fetch moves `PC` by 4 or 2 from the skip's own address. 41_flow R120, 40_cycle R102. -/
theorem State.At.toNat_skipIf_pc (hat : s.At w) (hc : c = true ↔ p) :
    ((s.advance w).skipIf c).pc.toNat = s.pc.toNat + if p then 4 else 2 := by
  have hadv := hat.toNat_advance_pc
  have hle := hat.pc_le
  rw [State.skipIf_pc_of_iff _ hc]
  split_ifs
  · rw [BitVec.toNat_add, hadv]
    exact Nat.mod_eq_of_lt (show s.pc.toNat + 2 + 2 < 65536 by omega)
  · exact hadv

theorem OnlyChanges.skipIf {regs : Reg → Prop} {parts : List StatePart} (h : .pc ∈ parts) :
    OnlyChanges regs parts s (s.skipIf c) :=
  .setPc h

/-- A part that ends as it began need not be listed. -/
theorem OnlyChanges.of_cons {regs : Reg → Prop} {part : StatePart} {parts : List StatePart}
    (h : OnlyChanges regs (part :: parts) s t) (hp : SamePart s t part) : OnlyChanges regs parts s t := by
  obtain ⟨hreg, hpart⟩ := h
  refine ⟨hreg, fun q hq => ?_⟩
  by_cases hqp : q = part
  · exact hqp ▸ hp
  · exact hpart q fun hmem => hq (List.mem_of_ne_of_mem hqp hmem)

end Sys2Proof.Machine
end

section
/-! PROOF. The jump to its own address: O31, and the jump: O39. -/

namespace Sys2Proof.Machine

/-- Settles O39: the decoder by `decodeWord_encode`, the one update by `State.setPc`. -/
theorem jumpAbsolute : Obligations.JumpAbsolute := fun nnn _ =>
  ⟨decodeWord_encode (i := .jp nnn) rfl, _, rfl, toNat_addrImm nnn, .setPc (.head _)⟩

/-- Settles O31: the cycle is advance, jump, tick and next input; of these only the first two write `PC`, and the jump
puts it back. -/
theorem selfLoopIsStable : Obligations.SelfLoopIsStable := by
  intro s nnn hat hself
  have hpc : addrImm nnn = s.pc := BitVec.eq_of_toNat_eq ((toNat_addrImm nnn).trans hself.symm)
  have hframe : OnlyChanges noReg [.pc, .instrReg, .delay, .sound, .hostInputs] s
      ((s.advance (formatA 0x1 nnn)).setPc (addrImm nnn)).tick.takeInput :=
    .trans (.advance (by simp) (by simp))
      (.trans (.setPc (by simp)) (.trans (.tick (by simp) (by simp)) (.takeInput (by simp))))
  exact ⟨_, step_of_exec_running hat (decodeWord_encode (i := .jp nnn) rfl) rfl hat.running, hat.running,
    toNat_tickByte s.dt, toNat_tickByte s.st, hframe.of_cons hpc⟩

end Sys2Proof.Machine
end

section
/-! PROOF. The skips on registers and immediates: O43, O44, and every skip from its own address: O45. -/

namespace Sys2Proof.Machine

/-- Settles O43: both are `State.skipIf`, on equality and on its complement. -/
theorem skipOnImmediate : Obligations.SkipOnImmediate := fun x nn s =>
  ⟨⟨decodeWord_encode (i := .seImm x nn) rfl, _, rfl, s.skipIf_pc_of_iff beq_iff_eq, .skipIf (.head _)⟩,
    ⟨decodeWord_encode (i := .sneImm x nn) rfl, _, rfl, s.skipIf_pc_of_iff_not bne_iff_ne, .skipIf (.head _)⟩⟩

/-- Settles O44: as O43, with `V[y]` for the immediate. -/
theorem skipOnRegisters : Obligations.SkipOnRegisters := fun x y s =>
  ⟨⟨decodeWord_encode (i := .seReg x y) rfl, _, rfl, s.skipIf_pc_of_iff beq_iff_eq, .skipIf (.head _)⟩,
    ⟨decodeWord_encode (i := .sneReg x y) rfl, _, rfl, s.skipIf_pc_of_iff_not bne_iff_ne, .skipIf (.head _)⟩⟩

/-- The key that `SKP` and `SKNP` test, as the statements write it. 45_keypad_timers R201, R202. -/
theorem eq_iff_of_keyPressed {keys : Keys} {k : Byte} {pressed : Bool} (b : Bool)
    (h : keyPressed keys k = some pressed) : pressed = b ↔ keys[k.toNat]? = some b := by
  rw [keyPressed] at h
  rw [h, Option.some.injEq]

/-- Settles O45: in a completed step each of the six leaves the advanced state's `skipIf` of its condition, and the end
of the cycle keeps `PC`. -/
theorem skipsMeasureFromInstruction : Obligations.SkipsMeasureFromInstruction := by
  intro s t w hat h ht
  obtain ⟨u, hx, rfl⟩ := hat.eq_tick_takeInput_of_step h ht
  cases hd : decodeWord w with
  | error e => trivial
  | ok i =>
    rw [execWord_of_ok hd] at hx
    cases i with
    | seImm _ _ | seReg _ _ =>
      obtain rfl := Host.Outcome.next.inj hx
      exact hat.toNat_skipIf_pc beq_iff_eq
    | sneImm _ _ | sneReg _ _ =>
      obtain rfl := Host.Outcome.next.inj hx
      exact hat.toNat_skipIf_pc bne_iff_ne
    | skp x =>
      obtain ⟨-, rfl⟩ | ⟨pressed, hk, rfl⟩ := exec_skp_eq_next_iff.1 hx
      · cases ht
      · exact hat.toNat_skipIf_pc (eq_iff_of_keyPressed true hk)
    | sknp x =>
      obtain ⟨-, rfl⟩ | ⟨pressed, hk, rfl⟩ := exec_sknp_eq_next_iff.1 hx
      · cases ht
      · exact hat.toNat_skipIf_pc ((Bool.not_eq_true' pressed).to_iff.trans (eq_iff_of_keyPressed false hk))
    | _ => trivial

end Sys2Proof.Machine
end

section
/-! SUPPORT. The ALU's flags and results as numbers, and `State.setFlagThenReg` read at its two registers. -/

namespace Sys2Proof.Machine

/-! ## Flags and results -/

/-- The flag of a condition, by the proposition its Boolean decides. 42_alu R148, R149, R151. -/
theorem flagByte_decide (p : Prop) [Decidable p] : flagByte (decide p) = if p then 1 else 0 :=
  if_congr decide_eq_true_iff rfl rfl

/-- A bit as a flag is the binary digit of its place. 42_alu R150, R152. -/
theorem toNat_flagByte_getLsbD (a : Byte) (i : Nat) :
    (flagByte (a.getLsbD i)).toNat = a.toNat / 2 ^ i % 2 := by
  rw [toNat_flagByte, ← Nat.toNat_testBit, Bool.toNat, Bool.cond_eq_ite]
  rfl

/-- The bit `SHR` shifts out. 42_alu R150. -/
theorem toNat_flagByte_lowBitFlag (a : Byte) : (flagByte (lowBitFlag a)).toNat = a.toNat % 2 := by
  rw [lowBitFlag, toNat_flagByte_getLsbD, Nat.pow_zero, Nat.div_one]

/-- The bit `SHL` shifts out is the highest of the byte. 42_alu R152. -/
theorem toNat_flagByte_highBitFlag (a : Byte) : (flagByte (highBitFlag a)).toNat = a.toNat / 128 := by
  have hlt : a.toNat < 256 := a.isLt
  rw [highBitFlag, toNat_flagByte_getLsbD]
  omega

/-- A difference modulo 256, with 256 added so that no natural subtraction is cut off. 42_alu R140. -/
theorem toNat_byte_sub (a b : Byte) : (a - b).toNat = (a.toNat + 256 - b.toNat) % 256 := by
  have hb : b.toNat ≤ 256 := b.isLt.le
  rw [Nat.add_sub_assoc hb]
  exact BitVec.toNat_sub' ..

/-- 42_alu R150. -/
theorem toNat_byte_shiftRight_one (a : Byte) : (a >>> 1).toNat = a.toNat / 2 := by
  rw [BitVec.toNat_ushiftRight, Nat.shiftRight_one]

/-- 42_alu R152. -/
theorem toNat_byte_shiftLeft_one (a : Byte) : (a <<< 1).toNat = 2 * a.toNat % 256 := by
  rw [BitVec.toNat_shiftLeft, Nat.shiftLeft_eq, Nat.pow_one, Nat.mul_comm]

/-! ## The flag first, the result last: 40_cycle R104, the spec's decision D4 -/

/-- The result stands in `V[x]`, with `x = 0xF` too. -/
@[simp] theorem State.reg_setFlagThenReg_self (s : State) (c : Bool) (x : Reg) (b : Byte) :
    (s.setFlagThenReg c x b).reg x = b :=
  State.reg_setReg_self ..

theorem State.reg_VF_setFlagThenReg (s : State) (c : Bool) {x : Reg} (b : Byte) (h : x ≠ VF) :
    (s.setFlagThenReg c x b).reg VF = flagByte c :=
  (State.reg_setReg_of_ne _ b h.symm).trans (State.reg_setReg_self ..)

end Sys2Proof.Machine
end

section
/-! PROOF. The ALU operations that write a flag: O36, O37. -/

namespace Sys2Proof.Machine

/-- What an ALU operation that writes a flag leaves: its result as a number, its flag, and its frame.
42_alu R140. -/
theorem State.setFlagThenReg_spec (s : State) {c : Bool} {x : Reg} {b flag : Byte} {n : Nat}
    (hresult : b.toNat = n) (hflag : flagByte c = flag) :
    ((s.setFlagThenReg c x b).reg x).toNat = n ∧ (x ≠ VF → (s.setFlagThenReg c x b).reg VF = flag) ∧
      OnlyChanges (fun r => r = x ∨ r = VF) [] s (s.setFlagThenReg c x b) := by
  rw [State.reg_setFlagThenReg_self]
  exact ⟨hresult, fun hx => (s.reg_VF_setFlagThenReg c b hx).trans hflag, .setFlagThenReg (.inl rfl) (.inr rfl)⟩

/-- Settles O36: each of the three is one `State.setFlagThenReg` of the old registers' sum or difference and of the
comparison of their numbers. -/
theorem flagArithmetic : Obligations.FlagArithmetic := fun _ _ s =>
  ⟨⟨_, rfl, s.setFlagThenReg_spec (BitVec.toNat_add ..) (flagByte_decide _)⟩,
    ⟨_, rfl, s.setFlagThenReg_spec (toNat_byte_sub ..) (flagByte_decide _)⟩,
    ⟨_, rfl, s.setFlagThenReg_spec (toNat_byte_sub ..) (flagByte_decide _)⟩⟩

/-- Settles O37: as O36, with the bit shifted out for the flag. -/
theorem shiftByOne : Obligations.ShiftByOne := by
  intro x y s
  refine ⟨⟨_, rfl, ?_⟩, ⟨_, rfl, ?_⟩⟩
  · obtain ⟨hresult, hflag, hframe⟩ :=
      s.setFlagThenReg_spec (x := x) (toNat_byte_shiftRight_one (s.reg x)) rfl
    exact ⟨hresult, fun hx => hflag hx ▸ toNat_flagByte_lowBitFlag _, hframe⟩
  · obtain ⟨hresult, hflag, hframe⟩ :=
      s.setFlagThenReg_spec (x := x) (toNat_byte_shiftLeft_one (s.reg x)) rfl
    exact ⟨hresult, fun hx => hflag hx ▸ toNat_flagByte_highBitFlag _, hframe⟩

end Sys2Proof.Machine
end

section
/-! PROOF. The ALU operations that write `V[x]` only: O33, O34, O35. -/

namespace Sys2Proof.Machine

/-- Settles O33: the decoder by `decodeWord_encode`, and one `State.setReg` each. -/
theorem loadImmediateAndCopy : Obligations.LoadImmediateAndCopy := fun x y nn s =>
  ⟨⟨decodeWord_encode (i := .ldImm x nn) rfl, _, rfl, s.reg_setReg_self .., .setReg rfl⟩,
    ⟨decodeWord_encode (i := .ldReg x y) rfl, _, rfl, s.reg_setReg_self .., .setReg rfl⟩⟩

/-- Settles O34: a sum of bytes wraps, and `State.setReg` writes no flag. -/
theorem addImmediateWraps : Obligations.AddImmediateWraps := by
  intro x nn s
  refine ⟨decodeWord_encode (i := .addImm x nn) rfl, _, rfl, ?_, .setReg rfl⟩
  rw [State.reg_setReg_self]
  exact BitVec.toNat_add ..

/-- Settles O35: bit `k` of an operation on bytes is the operation on their bits `k`. -/
theorem bitwiseOperations : Obligations.BitwiseOperations := by
  intro x y s
  refine ⟨⟨decodeWord_encode (i := .orReg x y) rfl, _, rfl, fun k => ?_, .setReg rfl⟩,
    ⟨decodeWord_encode (i := .andReg x y) rfl, _, rfl, fun k => ?_, .setReg rfl⟩,
    ⟨decodeWord_encode (i := .xorReg x y) rfl, _, rfl, fun k => ?_, .setReg rfl⟩⟩
  · rw [State.reg_setReg_self, BitVec.getLsbD_or]
  · rw [State.reg_setReg_self, BitVec.getLsbD_and]
  · rw [State.reg_setReg_self, BitVec.getLsbD_xor]

end Sys2Proof.Machine
end

section
/-! SUPPORT. The sprite of a `DRW` by its rows and columns: which cells its pixels lie over, what drawing leaves of a
cell, and when it collides. -/

namespace Sys2Proof.Machine

variable (s : State) (x y : Reg) (n : Fin 16)

/-- The drawing of `DRW`, in the closed form of its cells and of its collisions. 44_display R192. -/
theorem State.drawing_spec :
    (∀ cy cx, (s.drawing x y n).fb.cell cy cx = (s.fb.cell cy cx ^^ s.spritePixel x y n cy cx)) ∧
    ((s.drawing x y n).hit = true ↔ ∃ cy cx, s.spritePixel x y n cy cx = true ∧ s.fb.cell cy cx = true) := by
  have hlen : 0 + (s.mem.readList s.base n.val).length ≤ 32 := by
    rw [Memory.length_readList]
    omega
  have hspec := Drawing.rows_spec (s.reg y).toNat (s.reg x).toNat (s.mem.readList s.base n.val) 0 ⟨s.fb, false⟩ hlen
  simp only [rowsPixel_readList, Bool.false_eq_true, false_or] at hspec
  exact hspec

theorem State.cell_drawing (cy : Fin 32) (cx : Fin 64) :
    (s.drawing x y n).fb.cell cy cx = (s.fb.cell cy cx ^^ s.spritePixel x y n cy cx) :=
  (s.drawing_spec x y n).1 cy cx

/-- Over the cell of row `r` and column `c`, both wrapped, the sprite has bit `7 - c` of its byte `r`.
44_display R192. -/
theorem State.spritePixel_wrap {n : Fin 16} {r c : Nat} (hr : r < n.val) (hc : c < 8) :
    s.spritePixel x y n (wrapRow ((s.reg y).toNat + r)) (wrapCol ((s.reg x).toNat + c)) =
      (s.mem.read (s.base + r)).getLsbD (7 - c) := by
  have hrow : spriteRow (s.reg y).toNat (wrapRow ((s.reg y).toNat + r)) = r :=
    (wrapRow_eq_iff _ r (by omega) _).1 rfl
  have hcol : spriteCol (s.reg x).toNat (wrapCol ((s.reg x).toNat + c)) = c :=
    (wrapCol_eq_iff _ c (by omega) _).1 rfl
  simp [State.spritePixel, rowPixel, hrow, hcol, hr, hc]

/-- A cell with a sprite pixel over it is the cell of one of the sprite's rows and columns. 44_display R192. -/
theorem State.exists_wrap_of_spritePixel {cy : Fin 32} {cx : Fin 64} (h : s.spritePixel x y n cy cx = true) :
    ∃ r c, r < n.val ∧ c < 8 ∧ wrapRow ((s.reg y).toNat + r) = cy ∧ wrapCol ((s.reg x).toNat + c) = cx := by
  simp only [State.spritePixel, rowPixel, Bool.and_eq_true, decide_eq_true_eq] at h
  obtain ⟨hr, hc, -⟩ := h
  exact ⟨_, _, hr, hc, (wrapRow_eq_iff _ _ (by omega) cy).2 rfl, (wrapCol_eq_iff _ _ (by omega) cx).2 rfl⟩

/-- A drawing collides exactly when a 1 of the sprite lies over a cell that was on. 44_display R192. -/
theorem State.hit_drawing : (s.drawing x y n).hit = true ↔
    ∃ r c, r < n.val ∧ c < 8 ∧ (s.mem.read (s.base + r)).getLsbD (7 - c) = true ∧
      s.fb.cell (wrapRow ((s.reg y).toNat + r)) (wrapCol ((s.reg x).toNat + c)) = true := by
  rw [(s.drawing_spec x y n).2]
  constructor
  · rintro ⟨cy, cx, hp, hcell⟩
    obtain ⟨r, c, hr, hc, rfl, rfl⟩ := s.exists_wrap_of_spritePixel x y n hp
    exact ⟨r, c, hr, hc, s.spritePixel_wrap x y hr hc ▸ hp, hcell⟩
  · rintro ⟨r, c, hr, hc, hbit, hcell⟩
    exact ⟨_, _, (s.spritePixel_wrap x y hr hc).trans hbit, hcell⟩

variable {s x y n}

/-- A sprite in memory, or of no rows, is drawn. 44_display R192, the spec's decision D5. -/
theorem exec_drw_of_inBounds (h : n.val = 0 ∨ s.base + n.val - 1 ≤ 0xFFF) : exec (.drw x y n) s =
    .next ((s.setFb (s.drawing x y n).fb).setReg VF (flagByte (s.drawing x y n).hit)) :=
  exec_drw_eq_next_iff.2 (.inr ⟨outOfBounds_eq_none.2 (by omega), rfl⟩)

/-- A sprite not wholly in memory raises at its lowest bad address. 60_exceptions R225, the spec's decision D5. -/
theorem exec_drw_of_outOfBounds (hn : 0 < n.val) (h : 0xFFF < s.base + n.val - 1) : exec (.drw x y n) s =
    .next (s.raise (.memoryOutOfBounds .read (max s.base 0x1000))) :=
  exec_drw_eq_next_iff.2 (.inl ⟨_, outOfBounds_eq_some.2 ⟨hn, by omega, rfl⟩, rfl⟩)

end Sys2Proof.Machine
end

section
/-! PROOF. The display: O53, O54. -/

namespace Sys2Proof.Machine

/-- Settles O53: the decoder by `decodeWord_encode`, the one update by `State.setFb`. -/
theorem clearScreen : Obligations.ClearScreen :=
  ⟨decodeWord_encode (i := .cls) rfl, fun _ => ⟨_, rfl, Framebuffer.cell_clear, .setFb (.head _)⟩⟩

/-- Settles O54: the cells by `State.cell_drawing`, VF by `State.hit_drawing`, and the fault by
`exec_drw_of_outOfBounds`. -/
theorem drawSprite : Obligations.DrawSprite := by
  intro x y n s row col bit
  refine ⟨fun hin => ⟨_, exec_drw_of_inBounds hin, fun r c hr hc => ?_, fun cy cx hapart => ?_, fun hmeet => ?_,
    fun hmiss => ?_, .trans (.setFb (.head _)) (.setReg rfl)⟩,
    fun hn hout => ⟨_, exec_drw_of_outOfBounds hn hout, rfl, .raise (.head _)⟩⟩
  · exact (s.cell_drawing x y n _ _).trans (congrArg _ (s.spritePixel_wrap x y hr hc))
  · have hoff : s.spritePixel x y n cy cx = false := by
      refine Bool.eq_false_iff.2 fun hp => ?_
      obtain ⟨r, c, hr, hc, hrow, hcol⟩ := s.exists_wrap_of_spritePixel x y n hp
      exact hapart r c hr hc ⟨hrow, hcol⟩
    exact (s.cell_drawing x y n cy cx).trans (hoff ▸ Bool.xor_false _)
  · have hhit : (s.drawing x y n).hit = true := (s.hit_drawing x y n).2 hmeet
    rw [State.reg_setReg_self, hhit]
    rfl
  · have hhit : (s.drawing x y n).hit = false := by
      refine Bool.eq_false_iff.2 fun hh => ?_
      obtain ⟨r, c, hr, hc, hbit, hcell⟩ := (s.hit_drawing x y n).1 hh
      exact Bool.eq_false_iff.1 (hmiss r c hr hc hbit) hcell
    rw [State.reg_setReg_self, hhit]
    rfl

end Sys2Proof.Machine
end

section
/-! SUPPORT. `LD Vx,K` by what its scan finds: a key, or none. -/

namespace Sys2Proof.Machine

variable {s : State} {x : Reg}

/-- With a key pressed `LD Vx,K` is one write of `V[x]`. 45_keypad_timers R203. -/
theorem exec_ldVxK_of_leastKey {k : Fin 16} (hk : leastKey s.keys = some k) :
    exec (.ldVxK x) s = .next (s.setReg x (BitVec.ofNat 8 k.val)) := by
  rw [exec, execLdVxK, hk]
  rfl

/-- With no key pressed `LD Vx,K` is one write of `PC`. 45_keypad_timers R203. -/
theorem exec_ldVxK_of_noKey (hnone : ∀ k : Fin 16, s.keys[k.val] = false) :
    exec (.ldVxK x) s = .next (s.setPc (s.pc - 2)) := by
  rw [exec, execLdVxK, leastKey_eq_none.2 hnone]
  rfl

/-- `PC` less 2 takes the advance back. 40_cycle R102. -/
theorem State.advance_setPc_sub_two (s : State) (w : Word) :
    (s.advance w).setPc ((s.advance w).pc - 2) = { s with ir := w } :=
  congrArg (State.setPc (s.advance w)) (BitVec.add_sub_cancel s.pc 2)

theorem OnlyChanges.setIr {regs : Reg → Prop} {parts : List StatePart} {w : Word} (h : .instrReg ∈ parts) :
    OnlyChanges regs parts s { s with ir := w } :=
  ⟨fun _ _ => rfl, fun p hp => by cases p <;> simp_all [SamePart]⟩

end Sys2Proof.Machine
end

section
/-! PROOF. The key wait: O57, O58. -/

namespace Sys2Proof.Machine

/-- Settles O57: the scan finds the least pressed key by `leastKey_eq_some`, and none by `leastKey_eq_none`. -/
theorem keyWaitTakesLeastKey : Obligations.KeyWaitTakesLeastKey := by
  intro x s
  refine ⟨decodeWord_encode (i := .ldVxK x) rfl, fun k hk hleast => ?_, fun hnone => ?_⟩
  · refine ⟨_, exec_ldVxK_of_leastKey (leastKey_eq_some.2 ⟨hk, hleast⟩), ?_, .setReg rfl⟩
    have hlt : k.val < 256 := by omega
    rw [State.reg_setReg_self, BitVec.toNat_ofNat]
    exact Nat.mod_eq_of_lt hlt
  · have hpc : (s.pc - 2).toNat = (s.pc.toNat + 65536 - 2) % 65536 := BitVec.toNat_sub' ..
    exact ⟨_, exec_ldVxK_of_noKey hnone, hpc, .setPc (.head _)⟩

/-- Settles O58: the execute step takes the advance back, so before the end of the cycle only `IR` has changed. -/
theorem keyWaitStalls : Obligations.KeyWaitStalls := by
  intro x s hat hnone
  have hexec : exec (.ldVxK x) (s.advance (formatXK 0xF x 0x0A)) = .next { s with ir := formatXK 0xF x 0x0A } :=
    (exec_ldVxK_of_noKey (s := s.advance _) hnone).trans (congrArg _ (s.advance_setPc_sub_two _))
  exact ⟨_, step_of_exec_running hat (decodeWord_encode (i := .ldVxK x) rfl) hexec hat.running,
    ⟨hat.running, hat.pc_le, hat.high, hat.low⟩, toNat_tickByte s.dt, toNat_tickByte s.st,
    .trans (.setIr (by simp)) (.trans (.tick (by simp) (by simp)) (.takeInput (by simp)))⟩

end Sys2Proof.Machine
end

section
/-! PROOF. The timer loads: O59, and the sound port after `LD ST,Vx`: O23. -/

namespace Sys2Proof.Machine

/-- Settles O59: the decoder by `decodeWord_encode`, and one update each, of `V[x]`, `DT` and `ST`. -/
theorem timerLoads : Obligations.TimerLoads := fun x s =>
  ⟨⟨decodeWord_encode (i := .ldVxDt x) rfl, _, rfl, s.reg_setReg_self .., .setReg rfl⟩,
    ⟨decodeWord_encode (i := .ldDtVx x) rfl, _, rfl, rfl, .setDt (.head _)⟩,
    ⟨decodeWord_encode (i := .ldStVx x) rfl, _, rfl, rfl, .setSt (.head _)⟩⟩

/-- 10_state R42. -/
theorem State.soundOut_eq_true_iff (s : State) : s.soundOut = true ↔ 0 < s.st.toNat := decide_eq_true_iff

/-- Settles O23: the cycle of `LD ST,Vx` raises nothing and leaves in `ST` the tick of `V[x]`, which is above 0 exactly
when `V[x]` is at least 2. -/
theorem soundPortAfterLoad : Obligations.SoundPortAfterLoad := by
  refine ⟨State.soundOut_eq_true_iff, fun s t x hat h => ?_⟩
  rw [step_of_exec_running hat (decodeWord_encode (i := .ldStVx x) rfl) rfl hat.running] at h
  obtain rfl := Host.Outcome.next.inj h
  refine (State.soundOut_eq_true_iff _).trans ?_
  have hst : (tickByte (s.reg x)).toNat = (s.reg x).toNat - 1 := toNat_tickByte _
  exact hst ▸ Nat.sub_pos_iff_lt

end Sys2Proof.Machine
end

section
/-! PROOF. What reset leaves, and that it meets the invariant: O19, O20. -/

namespace Sys2Proof.Machine

/-- A store that lies inside memory keeps the invariant. 20_memory R50, R55. -/
theorem State.Inv.store {s : State} {a : Nat} {bs : List Byte} (hs : s.Inv) (h : a + bs.length ≤ 0x1000) :
    (s.store a bs).Inv :=
  { hs with
    mem_wf := Memory.wf_writeList bs a hs.mem_wf
    mem_range := Memory.inRange_writeList bs h hs.mem_range }

/-- No stack entry is live, memory lists nothing and the core runs. 10_state R35. -/
theorem State.reset_inv : State.reset.Inv where
  sp_legal := Nat.zero_le _
  pc_bound := by decide
  stack_live _ hk := absurd hk (Nat.not_lt_zero _)
  mem_wf := rfl
  mem_range := rfl
  fault_pc _ h := nomatch h

/-- Settles O19: a font table is 80 bytes, so reset's copy of it at 0x050 is a store that lies inside memory. -/
theorem resetMeetsInvariant : Obligations.ResetMeetsInvariant :=
  ⟨State.reset_inv, fun font => State.reset_inv.store (by rw [Vector.length_toList]; decide)⟩

/-- Memory after reset: the font table at 0x050 to 0x09F, 0 elsewhere. 10_state R35, R36. -/
theorem State.read_resetWith (font : Vector Byte 80) (a : Nat) : (State.resetWith font).mem.read a =
    if 0x050 ≤ a ∧ a < 0x0A0 then font.toList.getD (a - 0x050) 0 else 0 := by
  rw [State.resetWith, State.store_mem, Memory.read_writeList, Vector.length_toList]
  split
  case isTrue => rfl
  case isFalse hout => exact if_neg hout

/-- The bytes an unlisted address reads as are those reset with the default font leaves there, so the copy lists
nothing. 10_state R35, R36. -/
theorem State.resetWith_font_mem : (State.resetWith Config.font).mem = [] :=
  Memory.eq_of_read_eq (resetMeetsInvariant.2 _).mem_wf rfl (State.read_resetWith Config.font)

/-- Settles O20: memory by `State.read_resetWith`, and by `State.resetWith_font_mem` for the default font; every other
part is that of `State.reset`. -/
theorem resetState : Obligations.ResetState := by
  refine ⟨congrArg (fun m => { State.reset with mem := m }) State.resetWith_font_mem, fun font => ?_⟩
  have hv (r : Reg) : (State.resetWith font).reg r = 0 := Vector.getElem_replicate _
  have hstack (k : Fin 16) : (State.resetWith font).stack[k.val] = 0 := Vector.getElem_replicate _
  have hfont (k : Fin 80) : (State.resetWith font).mem.read (0x050 + k.val) = font[k.val] := by
    rw [State.read_resetWith, if_pos (by omega), Nat.add_sub_cancel_left]
    simp
  have hzero (a : Nat) (ha : a < 0x050 ∨ 0x0A0 ≤ a) : (State.resetWith font).mem.read a = 0 := by
    rw [State.read_resetWith, if_neg (by omega)]
  exact ⟨hv, rfl, rfl, hstack, rfl, rfl, rfl, rfl, hfont, hzero, Framebuffer.cell_clear, rfl⟩

end Sys2Proof.Machine
end

section
/-! SUPPORT. `CALL` and `RET` by the value of `SP`, and the stack after a push. -/

namespace Sys2Proof.Machine

variable {s : State} {nnn : Addr12} {a : Word}

/-- 41_flow R123. -/
theorem exec_call_of_lt (h : s.sp.toNat < 16) : exec (.call nnn) s = .next ((s.push s.pc).setPc (addrImm nnn)) :=
  exec_call_eq_next_iff.2 (.inr ⟨h, rfl⟩)

/-- 60_exceptions R221. -/
theorem exec_call_of_full (h : s.sp = 16) : exec (.call nnn) s = .next (s.raise .stackOverflow) :=
  exec_call_eq_next_iff.2 (.inl ⟨congrArg BitVec.toNat h, rfl⟩)

/-- No slot to write: the model stops (log 4). 10_state R26. -/
theorem exec_call_of_gt (h : 16 < s.sp.toNat) : exec (.call nnn) s = .fault (.illegalStackPointer s.sp) :=
  (if_neg h.ne').trans (if_neg h.not_gt)

/-- `RET` pops the entry below `SP`. 41_flow R121. -/
theorem exec_ret_of_top {k : Nat} (hsp : s.sp.toNat = k + 1) (ha : s.stack[k]? = some a) :
    exec .ret s = .next (s.popTo a) := by
  have h0 : s.sp ≠ 0 := fun h => by rw [h] at hsp; cases hsp
  have htop : s.stack[s.sp.toNat - 1]? = some a := by rw [hsp, Nat.add_sub_cancel, ha]
  exact exec_ret_eq_next_iff.2 (.inr ⟨h0, a, htop, rfl⟩)

/-- 60_exceptions R222. -/
theorem exec_ret_of_empty (h : s.sp = 0) : exec .ret s = .next (s.raise .stackUnderflow) :=
  exec_ret_eq_next_iff.2 (.inl ⟨h, rfl⟩)

/-- No entry to pop: the model stops (log 4). 10_state R26. -/
theorem exec_ret_of_gt (h : 16 < s.sp.toNat) : exec .ret s = .fault (.illegalStackPointer s.sp) := by
  have h0 : s.sp ≠ 0 := fun hz => by rw [hz] at h; exact absurd h (Nat.not_lt_zero _)
  have hnone : s.stack[s.sp.toNat - 1]? = none := Vector.getElem?_eq_none (by omega)
  rw [exec, execRet, if_neg h0, hnone]

/-- `SP` does not wrap while a slot is free. 10_state R26. -/
theorem State.toNat_push_sp (a : Word) (h : s.sp.toNat < 16) : (s.push a).sp.toNat = s.sp.toNat + 1 := by
  rw [State.push_sp]
  bv_omega

/-- The pushed word is the entry at the old `SP`. 41_flow R123. -/
theorem State.push_stack_top (a : Word) (h : s.sp.toNat < 16) : (s.push a).stack[s.sp.toNat]? = some a := by
  rw [State.push_stack, Vector.getElem?_setIfInBounds_self_of_lt h]

/-- On the stack a push leaves, `RET` goes to the pushed word. 41_flow R121, R123. -/
theorem exec_ret_of_push {t : State} (h : s.sp.toNat < 16) (hsp : t.sp = (s.push a).sp)
    (hst : t.stack = (s.push a).stack) : exec .ret t = .next (t.popTo a) :=
  exec_ret_of_top (hsp ▸ s.toNat_push_sp a h) (hst ▸ s.push_stack_top a h)

/-- A push leaves every other entry. 41_flow R123. -/
theorem State.push_stack_of_ne (s : State) (a : Word) {k : Fin 16} (h : k.val ≠ s.sp.toNat) :
    (s.push a).stack[k.val] = s.stack[k.val] :=
  Vector.getElem_setIfInBounds_ne k.isLt h.symm

end Sys2Proof.Machine
end

section
/-! PROOF. The subroutine call: O40, O41, O42; `SP`: O26; and the jump with offset: O46. -/

namespace Sys2Proof.Machine

/-- Settles O40: the three ranges of `SP`, by `exec_call_of_lt`, `exec_call_of_full` and `exec_call_of_gt`. -/
theorem callPushesAndJumps : Obligations.CallPushesAndJumps := by
  intro nnn s
  refine ⟨fun hlt => ?_, fun hfull => ?_, exec_call_of_gt⟩
  · exact ⟨_, exec_call_of_lt hlt, toNat_addrImm nnn, s.toNat_push_sp s.pc hlt, s.push_stack_top s.pc hlt,
      fun k hk => s.push_stack_of_ne s.pc hk, .trans (.push (by simp)) (.setPc (by simp))⟩
  · exact ⟨_, exec_call_of_full hfull, rfl, .raise (.head _)⟩

/-- Settles O41: the three ranges of `SP`, by `exec_ret_of_top`, `exec_ret_of_empty` and `exec_ret_of_gt`. -/
theorem returnPopsAndJumps : Obligations.ReturnPopsAndJumps := by
  intro s
  refine ⟨fun k hsp => ?_, fun hempty => ?_, exec_ret_of_gt⟩
  · have hdown : (s.sp - 1).toNat = k.val := by bv_omega
    exact ⟨_, exec_ret_of_top hsp (Vector.getElem?_eq_getElem k.isLt), rfl, hdown, rfl,
      .popTo (by simp) (by simp)⟩
  · exact ⟨_, exec_ret_of_empty hempty, rfl, .raise (.head _)⟩

/-- Settles O42: the call pushes the advanced `PC`, which is what the return finds on top. -/
theorem callThenReturn : Obligations.CallThenReturn := by
  intro s t nnn hat hlt h hret
  have hcall := step_of_exec_running hat (decodeWord_encode (i := .call nnn) rfl) (exec_call_of_lt hlt) hat.running
  obtain rfl := Host.Outcome.next.inj (hcall.symm.trans h)
  exact ⟨_, step_of_exec_running hret (decodeWord_encode (i := .ret) rfl) (exec_ret_of_push hlt rfl rfl) hret.running,
    hret.running, rfl, BitVec.add_sub_cancel s.sp 1, fun k hk => s.push_stack_of_ne (s.pc + 2) hk.ne⟩

/-- Settles O26: `CALL` and `RET` by their branches; no other instruction lists the stack. -/
theorem stackPointerMovesByOne : Obligations.StackPointerMovesByOne := by
  intro i s t hle h
  cases i with
  | call nnn =>
    obtain ⟨-, rfl⟩ | ⟨hlt, rfl⟩ := exec_call_eq_next_iff.1 h
    · exact ⟨hle, .inl rfl⟩
    · have hup : ((s.push s.pc).setPc (addrImm nnn)).sp.toNat = s.sp.toNat + 1 := s.toNat_push_sp s.pc hlt
      exact ⟨by omega, .inr (.inl ⟨⟨nnn, rfl⟩, hup⟩)⟩
  | ret =>
    obtain ⟨-, rfl⟩ | ⟨h0, a, -, rfl⟩ := exec_ret_eq_next_iff.1 h
    · exact ⟨hle, .inl rfl⟩
    · have hdown : (s.popTo a).sp.toNat + 1 = s.sp.toNat := by
        rw [State.popTo_sp]
        bv_omega
      exact ⟨by omega, .inr (.inr ⟨rfl, hdown⟩)⟩
  | _ =>
    obtain ⟨hsp, -⟩ : t.sp = s.sp ∧ t.stack = s.stack := (exec_onlyChanges h).2 .stack (by simp [Instr.partsWritten])
    exact ⟨hsp ▸ hle, .inl hsp⟩

/-- Settles O46: the sum of 12 and 8 bits does not wrap in 16. -/
theorem jumpV0NotMasked : Obligations.JumpV0NotMasked := fun nnn s =>
  ⟨_, rfl, toNat_addrImm_add_byteAddend nnn (s.reg 0), .setPc (.head _)⟩

end Sys2Proof.Machine
end

section
/-! SUPPORT. The memory instructions by whether their last byte is in memory, and bytes and registers read back after
a store and after a load. -/

namespace Sys2Proof.Machine

variable {s : State} {x : Reg}

/-- 43_index_memory R174. -/
theorem exec_ldB_of_le (h : s.base + 2 ≤ 0xFFF) :
    exec (.ldB x) s = .next (s.store s.base (decimalDigits (s.reg x))) :=
  exec_ldB_eq_next_iff.2 (.inr ⟨outOfBounds_eq_none.2 (.inr (Nat.succ_le_succ h)), rfl⟩)

/-- 43_index_memory R176. -/
theorem exec_loadRegs_of_le (h : s.base + x.val ≤ 0xFFF) :
    exec (.loadRegs x) s = .next (s.loadRegs (s.mem.readList s.base (x.val + 1))) :=
  exec_loadRegs_eq_next_iff.2 (.inr ⟨outOfBounds_eq_none.2 (.inr (Nat.succ_le_succ h)), rfl⟩)

/-- A transfer of `k + 1` bytes whose last one is not in memory has 0x1000, or its base, as its lowest bad address.
60_exceptions R225, the spec's decision D5. -/
theorem outOfBounds_succ_of_lt {base k : Nat} (h : 0xFFF < base + k) :
    outOfBounds base (k + 1) = some (max base 0x1000) :=
  outOfBounds_eq_some.2 ⟨Nat.succ_pos k, Nat.succ_lt_succ h, rfl⟩

/-- 43_index_memory R174, 60_exceptions R225. -/
theorem exec_ldB_of_lt (h : 0xFFF < s.base + 2) :
    exec (.ldB x) s = .next (s.raise (.memoryOutOfBounds .write (max s.base 0x1000))) :=
  exec_ldB_eq_next_iff.2 (.inl ⟨_, outOfBounds_succ_of_lt h, rfl⟩)

/-- 43_index_memory R175, 60_exceptions R225. -/
theorem exec_storeRegs_of_lt (h : 0xFFF < s.base + x.val) :
    exec (.storeRegs x) s = .next (s.raise (.memoryOutOfBounds .write (max s.base 0x1000))) :=
  exec_storeRegs_eq_next_iff.2 (.inl ⟨_, outOfBounds_succ_of_lt h, rfl⟩)

/-- 43_index_memory R176, 60_exceptions R225. -/
theorem exec_loadRegs_of_lt (h : 0xFFF < s.base + x.val) :
    exec (.loadRegs x) s = .next (s.raise (.memoryOutOfBounds .read (max s.base 0x1000))) :=
  exec_loadRegs_eq_next_iff.2 (.inl ⟨_, outOfBounds_succ_of_lt h, rfl⟩)

/-- A stored byte is read back at its address. 20_memory R55, R59. -/
theorem State.read_store_of_getElem? (s : State) (a : Nat) {bs : List Byte} {k : Nat} {b : Byte}
    (h : bs[k]? = some b) : (s.store a bs).mem.read (a + k) = b := by
  obtain ⟨hk, -⟩ := List.getElem?_eq_some_iff.1 h
  rw [State.store_mem, Memory.read_writeList, if_pos ⟨Nat.le_add_right .., Nat.add_lt_add_left hk a⟩,
    Nat.add_sub_cancel_left, List.getD_eq_getElem?_getD, h, Option.getD_some]

/-- The stored digits are read back as numbers, hundreds first. 43_index_memory R174. -/
theorem State.toNat_read_store_decimalDigits (s : State) (a : Nat) (b : Byte) {k d : Nat}
    (h : [b.toNat / 100, b.toNat / 10 % 10, b.toNat % 10][k]? = some d) :
    ((s.store a (decimalDigits b)).mem.read (a + k)).toNat = d := by
  rw [← toNat_decimalDigits, List.getElem?_map, Option.map_eq_some_iff] at h
  obtain ⟨digit, hdigit, rfl⟩ := h
  rw [s.read_store_of_getElem? a hdigit]

/-- A store of `k + 1` bytes leaves every byte but those from its address to `k` above it. 20_memory R59. -/
theorem State.read_store_of_outside (s : State) {a b k : Nat} {bs : List Byte} (hlen : bs.length = k + 1)
    (h : ¬ (a ≤ b ∧ b ≤ a + k)) : (s.store a bs).mem.read b = s.mem.read b := by
  rw [State.store_mem, Memory.read_writeList, if_neg (by omega)]

/-- Register `k` after loading the bytes at `a` on. 43_index_memory R176. -/
theorem State.reg_loadRegs_readList (s : State) (a : Nat) {k : Reg} (h : k ≤ x) :
    (s.loadRegs (s.mem.readList a (x.val + 1))).reg k = s.mem.read (a + k.val) := by
  have hk : k.val < x.val + 1 := Nat.lt_succ_of_le h
  rw [State.reg_loadRegs, getElem_regsFromList, if_pos (Nat.zero_le _), Nat.sub_zero, Memory.getElem?_readList,
    if_pos hk, Option.getD_some]

/-- `LD Vx,[I]` loads `x + 1` bytes, so no register above `x`. 43_index_memory R176. -/
theorem OnlyChanges.loadRegs_readList {parts : List StatePart} (s : State) (a : Nat) (x : Reg) :
    OnlyChanges (fun r => r ≤ x) parts s (s.loadRegs (s.mem.readList a (x.val + 1))) :=
  .loadRegs fun _ hr => Fin.le_def.2 (Nat.le_of_lt_succ (hr.trans_eq (Memory.length_readList ..)))

end Sys2Proof.Machine
end

section
/-! PROOF. The index register: O47, the digits: O48, and the block transfers: O49, O50, O51. -/

namespace Sys2Proof.Machine

/-- Settles O47: each is one `State.setIndex`, whose value is read as a number. -/
theorem indexRegisterLoads : Obligations.IndexRegisterLoads := by
  refine ⟨fun nnn s => ⟨_, rfl, toNat_addrImm nnn, .setIndex (.head _)⟩, fun x s => ⟨_, rfl, ?_, .setIndex (.head _)⟩,
    fun x s => ⟨_, rfl, toNat_glyphAddr (s.reg x), .setIndex (.head _)⟩⟩
  rw [State.setIndex_index, BitVec.toNat_add, toNat_byteAddend]

/-- Settles O48: the three bytes stored are the digits (`toNat_decimalDigits`), and the rest of memory is as before. -/
theorem decimalDigitsStored : Obligations.DecimalDigitsStored := by
  intro x s
  refine ⟨fun hle => ?_, fun hlt => ⟨_, exec_ldB_of_lt hlt, rfl, .raise (.head _)⟩⟩
  exact ⟨_, exec_ldB_of_le hle, s.toNat_read_store_decimalDigits s.base (s.reg x) (k := 0) rfl,
    s.toNat_read_store_decimalDigits s.base (s.reg x) (k := 1) rfl,
    s.toNat_read_store_decimalDigits s.base (s.reg x) (k := 2) rfl,
    fun a ha => s.read_store_of_outside (k := 2) rfl ha, .store (.head _)⟩

/-- Settles O49: the bytes stored by `State.read_store_regsUpTo`, the rest of memory as before. -/
theorem registersStored : Obligations.RegistersStored := by
  intro x s
  refine ⟨fun hle => ?_, fun hlt => ⟨_, exec_storeRegs_of_lt hlt, rfl, .raise (.head _)⟩⟩
  exact ⟨_, exec_storeRegs_of_le hle, fun k hk => s.read_store_regsUpTo s.base hk,
    fun a ha => s.read_store_of_outside (s.length_regsUpTo x) ha, .store (.head _)⟩

/-- Settles O50: the registers loaded by `State.reg_loadRegs_readList`, the rest by their frame. -/
theorem registersLoaded : Obligations.RegistersLoaded := by
  intro x s
  refine ⟨fun hle => ?_, fun hlt => ⟨_, exec_loadRegs_of_lt hlt, rfl, .raise (.head _)⟩⟩
  exact ⟨_, exec_loadRegs_of_le hle, fun k hk => s.reg_loadRegs_readList s.base hk, .loadRegs_readList s s.base x⟩

/-- Settles O51: what is loaded is what memory holds at `I`, and the store put the registers there. -/
theorem storeThenLoadRestores : Obligations.StoreThenLoadRestores := by
  intro x s t u hle h hmem hI
  obtain rfl := Host.Outcome.next.inj ((exec_storeRegs_of_le hle).symm.trans h)
  have hbase : u.base = s.base := congrArg BitVec.toNat hI
  refine ⟨_, exec_loadRegs_of_le (hbase ▸ hle), fun k hk => ?_⟩
  calc (u.loadRegs (u.mem.readList u.base (x.val + 1))).reg k
    _ = u.mem.read (u.base + k.val) := u.reg_loadRegs_readList u.base hk
    _ = (s.store s.base (s.regsUpTo x)).mem.read (s.base + k.val) := by rw [hmem, hbase]
    _ = s.reg k := s.read_store_regsUpTo s.base hk

end Sys2Proof.Machine
end

section
/-! SUPPORT. Which fault an instruction raises, as a function of the state, and with it the `FAULT` a step leaves. -/

namespace Sys2Proof

/-- The kind of fault the execute step of an instruction raises, if any, with its info. 60_exceptions R221, R222, R225,
R226. -/
def Instr.raised (s : Machine.State) : Instr → Option Machine.FaultInfo
  | .call _ => if s.sp = 16 then some .stackOverflow else none
  | .ret => if s.sp = 0 then some .stackUnderflow else none
  | .drw _ _ n => (Machine.outOfBounds s.base n.val).map (.memoryOutOfBounds .read)
  | .ldB _ => (Machine.outOfBounds s.base 3).map (.memoryOutOfBounds .write)
  | .storeRegs x => (Machine.outOfBounds s.base (x.val + 1)).map (.memoryOutOfBounds .write)
  | .loadRegs x => (Machine.outOfBounds s.base (x.val + 1)).map (.memoryOutOfBounds .read)
  | .skp x | .sknp x => if 15 < (s.reg x).toNat then some (.keyIndexOutOfRange (s.reg x)) else none
  | _ => none

end Sys2Proof

namespace Sys2Proof.Machine

variable {s t u : State} {i : Instr} {w : Word} {r : FaultRecord}

/-- The fault of a transfer of `n` bytes at `base`. 60_exceptions R225, the spec's decision D5. -/
theorem map_outOfBounds_eq_some {base n : Nat} {f : Nat → FaultInfo} {k : FaultInfo} :
    (outOfBounds base n).map f = some k ↔ 0 < n ∧ 0xFFF < base + n - 1 ∧ k = f (max base 0x1000) := by
  simp only [Option.map_eq_some_iff, outOfBounds_eq_some]
  constructor
  · rintro ⟨a, ⟨hn, hlt, rfl⟩, rfl⟩
    exact ⟨hn, by omega, rfl⟩
  · rintro ⟨hn, hlt, rfl⟩
    exact ⟨_, ⟨hn, by omega, rfl⟩, rfl⟩

/-- The advance changes nothing that a fault depends on. 40_cycle R102. -/
@[simp] theorem raised_advance (i : Instr) (s : State) (w : Word) : i.raised (s.advance w) = i.raised s := by
  cases i <;> rfl

/-- An execute step raises the fault `Instr.raised` names, or where it names none leaves `FAULT` alone.
60_exceptions R223, R224. -/
theorem exec_raised (h : exec i s = .next t) :
    (∃ k, i.raised s = some k ∧ t = s.raise k) ∨ (i.raised s = none ∧ t.fault = s.fault) := by
  cases i with
  | call nnn =>
    obtain ⟨h16, rfl⟩ | ⟨hlt, rfl⟩ := exec_call_eq_next_iff.1 h
    · exact .inl ⟨_, if_pos (BitVec.eq_of_toNat_eq h16), rfl⟩
    · exact .inr ⟨if_neg fun he => absurd (congrArg BitVec.toNat he) hlt.ne, rfl⟩
  | ret =>
    obtain ⟨h0, rfl⟩ | ⟨h0, a, -, rfl⟩ := exec_ret_eq_next_iff.1 h
    · exact .inl ⟨_, if_pos h0, rfl⟩
    · exact .inr ⟨if_neg h0, rfl⟩
  | drw x y n =>
    obtain ⟨a, ha, rfl⟩ | ⟨hok, rfl⟩ := exec_drw_eq_next_iff.1 h
    · exact .inl ⟨_, congrArg (Option.map _) ha, rfl⟩
    · exact .inr ⟨congrArg (Option.map _) hok, rfl⟩
  | ldB x =>
    obtain ⟨a, ha, rfl⟩ | ⟨hok, rfl⟩ := exec_ldB_eq_next_iff.1 h
    · exact .inl ⟨_, congrArg (Option.map _) ha, rfl⟩
    · exact .inr ⟨congrArg (Option.map _) hok, rfl⟩
  | storeRegs x =>
    obtain ⟨a, ha, rfl⟩ | ⟨hok, rfl⟩ := exec_storeRegs_eq_next_iff.1 h
    · exact .inl ⟨_, congrArg (Option.map _) ha, rfl⟩
    · exact .inr ⟨congrArg (Option.map _) hok, rfl⟩
  | loadRegs x =>
    obtain ⟨a, ha, rfl⟩ | ⟨hok, rfl⟩ := exec_loadRegs_eq_next_iff.1 h
    · exact .inl ⟨_, congrArg (Option.map _) ha, rfl⟩
    · exact .inr ⟨congrArg (Option.map _) hok, rfl⟩
  | skp x =>
    obtain ⟨hn, rfl⟩ | ⟨p, hp, rfl⟩ := exec_skp_eq_next_iff.1 h
    · exact .inl ⟨_, if_pos (keyPressed_eq_none.1 hn), rfl⟩
    · exact .inr ⟨if_neg fun hk => Option.some_ne_none p (hp.symm.trans (keyPressed_eq_none.2 hk)), rfl⟩
  | sknp x =>
    obtain ⟨hn, rfl⟩ | ⟨p, hp, rfl⟩ := exec_sknp_eq_next_iff.1 h
    · exact .inl ⟨_, if_pos (keyPressed_eq_none.1 hn), rfl⟩
    · exact .inr ⟨if_neg fun hk => Option.some_ne_none p (hp.symm.trans (keyPressed_eq_none.2 hk)), rfl⟩
  | _ => obtain rfl := Host.Outcome.next.inj h; exact .inr ⟨rfl, rfl⟩

/-- The record an execute step leaves: that of the fault its instruction raises, at the instruction's address and with
its word. 60_exceptions R223, R224. -/
theorem fault_eq_some_iff_of_exec (hs : s.running) (h : exec i (s.advance w) = .next u) :
    u.fault = some r ↔ r.pc = s.pc ∧ r.word = some w ∧ i.raised s = some r.info := by
  rw [← raised_advance i s w]
  obtain ⟨k, hk, rfl⟩ | ⟨hk, hf⟩ := exec_raised h
  · have hpc : s.pc + 2 - 2 = s.pc := BitVec.add_sub_cancel s.pc 2
    obtain ⟨info, pc, word⟩ := r
    simp only [State.raise_fault, State.advance_pc, State.advance_ir, hpc, hk, Option.some.injEq, FaultRecord.mk.injEq]
    tauto
  · have hnone : u.fault = none := hf.trans hs
    simp [hnone, hk]

/-- One word stands at `PC`. 40_cycle R101. -/
theorem State.At.unique {w' : Word} (h : s.At w) (h' : s.At w') : w = w' :=
  Except.ok.inj (h.fetch.symm.trans h'.fetch)

/-- The record a step leaves when it executes the word `w`. An unrecognised word leaves none. 60_exceptions R223. -/
theorem State.At.fault_eq_some_iff (hat : s.At w) (h : step s = .next t) : t.fault = some r ↔
    ∃ i, decodeWord w = .ok i ∧ r.pc = s.pc ∧ r.word = some w ∧ i.raised s = some r.info := by
  obtain ⟨hh, -⟩ | ⟨-, hpc, -⟩ | ⟨w', e, hat', hd, rfl⟩ | ⟨w', i, u, hat', hd, hx, rfl⟩ := step_next_cases h
  · exact absurd hat.running hh
  · exact absurd hat.pc_le hpc.not_ge
  · obtain rfl := hat.unique hat'
    have hnone : (s.advance w).tick.takeInput.fault = none := hat.running
    rw [hnone, hd]
    simp
  · obtain rfl := hat.unique hat'
    rw [State.endCycle_fault_eq, fault_eq_some_iff_of_exec hat.running hx, hd]
    simp

/-- The record a running core's step leaves: that of the failed fetch, or that of the word executed.
60_exceptions R223, R225. -/
theorem fault_eq_some_iff_of_step (hs : s.running) (h : step s = .next t) : t.fault = some r ↔
    (0xFFE < s.pc.toNat ∧ r = ⟨.memoryOutOfBounds .fetch (max s.pc.toNat 0x1000), s.pc, none⟩) ∨
    ∃ w i, s.At w ∧ decodeWord w = .ok i ∧ r.pc = s.pc ∧ r.word = some w ∧ i.raised s = some r.info := by
  by_cases hpc : s.pc.toNat ≤ 0xFFE
  · have hat : s.At _ := .of_bytes hs hpc rfl rfl
    rw [hat.fault_eq_some_iff h]
    constructor
    · rintro ⟨i, hi⟩
      exact .inr ⟨_, i, hat, hi⟩
    · rintro (⟨hlt, -⟩ | ⟨w, i, hat', hi⟩)
      · exact absurd hpc hlt.not_ge
      · exact ⟨i, hat.unique hat' ▸ hi⟩
  · have hlt := Nat.lt_of_not_le hpc
    obtain rfl := Host.Outcome.next.inj ((step_of_fetch_error hs (State.fetch_eq_error.2 ⟨hlt, rfl⟩)).symm.trans h)
    constructor
    · intro hr
      exact .inl ⟨hlt, (Option.some.inj hr).symm⟩
    · rintro (⟨-, rfl⟩ | ⟨w, i, hat, -⟩)
      · rfl
      · exact absurd hat.pc_le hpc

theorem OnlyChanges.raiseFetch {regs : Reg → Prop} {parts : List StatePart} {a : Nat}
    (h : .faultReg ∈ parts) : OnlyChanges regs parts s (s.raiseFetch a) :=
  ⟨fun _ _ => rfl, fun p hp => by cases p <;> simp_all [SamePart]⟩

end Sys2Proof.Machine
end

section
/-! PROOF. The faults of a step: O10, O11, O12, O13. -/

namespace Sys2Proof.Machine

/-- Settles O11. -/
theorem haltedCoreDoesNothing : Obligations.HaltedCoreDoesNothing := fun _ => step_of_halted

/-- Settles O10: the fetch fails with the higher of `PC` and 0x1000, which `PC = 0xFFF` alone is below. -/
theorem fetchAboveMemoryFaults : Obligations.FetchAboveMemoryFaults := by
  intro s hs hlt
  have haddr : max s.pc.toNat 0x1000 = if s.pc.toNat = 0xFFF then 0x1000 else s.pc.toNat := by
    split <;> omega
  exact ⟨_, step_of_fetch_error hs (State.fetch_eq_error.2 ⟨hlt, haddr.symm⟩), rfl, .raiseFetch (.head _)⟩

/-- Settles O12: only `FAULT` changes by `eq_set_fault_of_step`, and its record is one of those of
`fault_eq_some_iff_of_step`. -/
theorem faultingCycleChangesOnlyFault : Obligations.FaultingCycleChangesOnlyFault := by
  intro s t hs h ht
  obtain ⟨r, rfl⟩ := eq_set_fault_of_step hs h ht
  obtain ⟨hlt, rfl⟩ | ⟨w, i, hat, -, hpc, hword, -⟩ := (fault_eq_some_iff_of_step hs h).1 rfl
  · exact ⟨_, rfl, rfl, iff_of_true rfl hlt, fun w hat => absurd hat.pc_le hlt.not_ge⟩
  · have hsome : r.word ≠ none := hword ▸ Option.some_ne_none w
    exact ⟨r, rfl, hpc, iff_of_false hsome hat.pc_le.not_gt, fun w' hat' => hat'.unique hat ▸ hword⟩

/-- Settles O13: `fault_eq_some_iff_of_step`, with `Instr.raised` written out for each instruction. -/
theorem faultsAriseExactlyWhen : Obligations.FaultsAriseExactlyWhen := by
  intro s t r hs h
  rw [fault_eq_some_iff_of_step hs h]
  refine or_congr_right (exists_congr fun w => exists_congr fun i => ?_)
  refine and_congr_right' (and_congr_right' (and_congr_right' (and_congr_right' ?_)))
  cases i with
  | call _ | ret | skp _ | sknp _ => simp [Instr.raised, eq_comm (a := r.info)]
  | drw _ _ _ | ldB _ | storeRegs _ | loadRegs _ =>
    simp [Instr.raised, map_outOfBounds_eq_some, State.base, -Option.map_eq_some_iff]
  | _ => simp [Instr.raised]

end Sys2Proof.Machine
end

section
/-! PROOF. `SYS` is a no-op: O16, and the cycle is total: O17. -/

namespace Sys2Proof.Machine

/-- Settles O16: `SYS` answers the state it is given, so its cycle is `State.At.noOpCycle`. -/
theorem sysIsNoOp : Obligations.SysIsNoOp :=
  ⟨fun _ s => ⟨s, rfl, .refl⟩, fun _ _ _ hat hd => hat.noOpCycle (execWord_of_ok hd)⟩

/-- 40_cycle R110, 10_state R26. -/
theorem exec_total {s : State} (i : Instr) (hsp : s.sp.toNat ≤ 16) : ∃ t, exec i s = .next t := by
  cases hx : exec i s with
  | next t => exact ⟨t, rfl⟩
  | fault f =>
    obtain ⟨hgt, -, -⟩ := exec_fault_cases hx
    exact absurd hsp hgt.not_ge
  | refused r => exact absurd hx (exec_ne_refused i s r)

/-- An unrecognised word's execute step is total without a condition. 40_cycle R106, R110. -/
theorem execWord_total {s : State} (w : Word) (hsp : s.sp.toNat ≤ 16) : ∃ t, execWord w s = .next t := by
  cases hd : decodeWord w with
  | ok i => exact execWord_of_ok hd ▸ exec_total i hsp
  | error e => exact ⟨s, execWord_of_error hd⟩

/-- 40_cycle R110. -/
theorem step_total {s : State} (hsp : s.sp.toNat ≤ 16) : ∃ t, step s = .next t := by
  by_cases hs : s.running
  · by_cases hpc : s.pc.toNat ≤ 0xFFE
    · have hat : s.At _ := .of_bytes hs hpc rfl rfl
      obtain ⟨u, hu⟩ := execWord_total (s := s.advance _) _ hsp
      rw [step_of_at hat, hu]
      exact ⟨_, rfl⟩
    · exact ⟨_, step_of_fetch_error hs (State.fetch_eq_error.2 ⟨Nat.lt_of_not_le hpc, rfl⟩)⟩
  · exact ⟨s, step_of_halted hs⟩

/-- Settles O17. -/
theorem legalStatesAlwaysStep : Obligations.LegalStatesAlwaysStep :=
  ⟨fun i _ hsp => exec_total i hsp, fun _ hs => step_total hs.sp_legal⟩

end Sys2Proof.Machine
end

section
/-! PROOF. No instruction reads `IR` as data: O30. -/

namespace Sys2Proof.Machine

/-- Settles O30: an instruction that can raise reads `IR` for its record only, and here it raises nothing; no update
mentions `IR`. -/
theorem instructionRegisterNeverRead : Obligations.InstructionRegisterNeverRead := by
  intro i s t w _ h ht
  cases i with
  | ret =>
    obtain ⟨-, rfl⟩ | ⟨h0, a, ha, rfl⟩ := exec_ret_eq_next_iff.1 h
    · cases ht
    · exact exec_ret_eq_next_iff.2 (.inr ⟨h0, a, ha, rfl⟩)
  | call nnn =>
    obtain ⟨-, rfl⟩ | ⟨hlt, rfl⟩ := exec_call_eq_next_iff.1 h
    · cases ht
    · exact exec_call_of_lt (s := { s with ir := w }) hlt
  | drw x y n =>
    obtain ⟨a, -, rfl⟩ | ⟨hok, rfl⟩ := exec_drw_eq_next_iff.1 h
    · cases ht
    · exact exec_drw_eq_next_iff.2 (.inr ⟨hok, rfl⟩)
  | skp x =>
    obtain ⟨-, rfl⟩ | ⟨p, hp, rfl⟩ := exec_skp_eq_next_iff.1 h
    · cases ht
    · exact exec_skp_eq_next_iff.2 (.inr ⟨p, hp, rfl⟩)
  | sknp x =>
    obtain ⟨-, rfl⟩ | ⟨p, hp, rfl⟩ := exec_sknp_eq_next_iff.1 h
    · cases ht
    · exact exec_sknp_eq_next_iff.2 (.inr ⟨p, hp, rfl⟩)
  | ldB x =>
    obtain ⟨a, -, rfl⟩ | ⟨hok, rfl⟩ := exec_ldB_eq_next_iff.1 h
    · cases ht
    · exact exec_ldB_eq_next_iff.2 (.inr ⟨hok, rfl⟩)
  | storeRegs x =>
    obtain ⟨a, -, rfl⟩ | ⟨hok, rfl⟩ := exec_storeRegs_eq_next_iff.1 h
    · cases ht
    · exact exec_storeRegs_eq_next_iff.2 (.inr ⟨hok, rfl⟩)
  | loadRegs x =>
    obtain ⟨a, -, rfl⟩ | ⟨hok, rfl⟩ := exec_loadRegs_eq_next_iff.1 h
    · cases ht
    · exact exec_loadRegs_eq_next_iff.2 (.inr ⟨hok, rfl⟩)
  | _ => obtain rfl := Host.Outcome.next.inj h; rfl

end Sys2Proof.Machine
end

section
/-! PROOF. Loading a ROM: O21. -/

namespace Sys2Proof.Machine

variable {s : State} {bytes : List Byte}

/-- 70_reset R255. -/
theorem State.romLoad_of_le (h : bytes.length ≤ 3584) : s.romLoad bytes = s.store 0x200 bytes :=
  if_neg h.not_gt

/-- 70_reset R255, the spec's decision D18. -/
theorem State.romLoad_of_lt (h : 3584 < bytes.length) :
    s.romLoad bytes = s.takeFault (.romTooLarge bytes.length) s.pc none :=
  if_pos h

/-- A ROM that is copied ends inside memory, and one that is rejected names the `PC` it halts at. 70_reset R255. -/
theorem State.Inv.romLoad (hs : s.Inv) : (s.romLoad bytes).Inv := by
  by_cases hle : bytes.length ≤ 3584
  · rw [State.romLoad_of_le hle]
    exact hs.store (Nat.add_le_add_left hle 0x200)
  · rw [State.romLoad_of_lt (Nat.lt_of_not_le hle)]
    exact hs.halt rfl

/-- Settles O21: the copy is one `State.store`, the rejection one `State.takeFault`. -/
theorem romLoadCopiesOrRejects : Obligations.RomLoadCopiesOrRejects := by
  intro s bytes
  refine ⟨fun hle => ?_, State.romLoad_of_lt, State.Inv.romLoad⟩
  rw [State.romLoad_of_le hle]
  exact ⟨Memory.read_writeList bytes s.mem 0x200, .store (.head _)⟩

end Sys2Proof.Machine
end

section
/-! PROOF. The codes and names of the faults: O32. -/

namespace Sys2Proof.Machine

/-- The names of the fault kinds in the order of their codes. 60_exceptions R223. -/
def faultNames : List String :=
  ["StackOverflow", "StackUnderflow", "MemoryOutOfBounds", "RomTooLarge", "KeyIndexOutOfRange"]

/-- The code finds the name in the table. 60_exceptions R223. -/
theorem FaultInfo.getElem?_faultNames (k : FaultInfo) : faultNames[k.code - 1]? = some k.name := by
  cases k <;> rfl

/-- The name finds the code in the table, whose codes count from 1. 60_exceptions R223. -/
theorem FaultInfo.idxOf_faultNames (k : FaultInfo) : faultNames.idxOf k.name + 1 = k.code := by
  cases k <;> rfl

/-- Settles O32: each kind's code and name by definition; code and name find each other in one table. -/
theorem faultCodesDistinct : Obligations.FaultCodesDistinct := by
  refine ⟨⟨rfl, rfl⟩, ⟨rfl, rfl⟩, fun _ _ => ⟨rfl, rfl⟩, fun _ => ⟨rfl, rfl⟩, fun _ => ⟨rfl, rfl⟩, fun a b => ?_⟩
  constructor
  · intro hcode
    exact Option.some.inj (by rw [← a.getElem?_faultNames, hcode, b.getElem?_faultNames])
  · intro hname
    rw [← a.idxOf_faultNames, hname, b.idxOf_faultNames]

end Sys2Proof.Machine
end

section
/-! PROOF. The random byte: O38. -/

namespace Sys2Proof.Machine

/-- Settles O38: one `State.setReg` of the masked byte, whatever byte the host supplies. -/
theorem randomByteMasked : Obligations.RandomByteMasked := by
  intro x nn s
  refine ⟨⟨_, rfl, fun k => ?_, .setReg rfl⟩, fun keys r => ⟨_, rfl, State.reg_setReg_self ..⟩⟩
  rw [State.reg_setReg_self, BitVec.getLsbD_and]

end Sys2Proof.Machine
end

section
/-! PROOF. The key skips: O56. -/

namespace Sys2Proof.Machine

variable {s : State} {x : Reg}

/-- A byte up to 15 is the number of its key. 45_keypad_timers R200. -/
theorem keyPressed_of_toNat_eq {keys : Keys} {b : Byte} {k : Fin 16} (h : b.toNat = k.val) :
    keyPressed keys b = some keys[k.val] := by
  rw [keyPressed, h, Vector.getElem?_eq_getElem k.isLt]

/-- 45_keypad_timers R201. -/
theorem exec_skp_of_key {k : Fin 16} (h : (s.reg x).toNat = k.val) :
    exec (.skp x) s = .next (s.skipIf s.keys[k.val]) :=
  exec_skp_eq_next_iff.2 (.inr ⟨_, keyPressed_of_toNat_eq h, rfl⟩)

/-- 45_keypad_timers R202. -/
theorem exec_sknp_of_key {k : Fin 16} (h : (s.reg x).toNat = k.val) :
    exec (.sknp x) s = .next (s.skipIf !s.keys[k.val]) :=
  exec_sknp_eq_next_iff.2 (.inr ⟨_, keyPressed_of_toNat_eq h, rfl⟩)

/-- Settles O56: both skips test one key, and with no such key both raise. -/
theorem keySkips : Obligations.KeySkips := by
  intro x s
  refine ⟨fun k hk => ⟨?_, ?_⟩, fun hlt => ?_⟩
  · exact ⟨_, exec_skp_of_key hk, s.skipIf_pc_of_iff Iff.rfl, .skipIf (.head _)⟩
  · exact ⟨_, exec_sknp_of_key hk, s.skipIf_pc_of_iff_not (by simp), .skipIf (.head _)⟩
  · have hnone : keyPressed s.keys (s.reg x) = none := keyPressed_eq_none.2 hlt
    exact ⟨⟨_, exec_skp_eq_next_iff.2 (.inl ⟨hnone, rfl⟩), rfl, .raise (.head _)⟩,
      ⟨_, exec_sknp_eq_next_iff.2 (.inl ⟨hnone, rfl⟩), rfl, .raise (.head _)⟩⟩

end Sys2Proof.Machine
end

section
/-! PROOF. Drawing the same sprite twice: O55. -/

namespace Sys2Proof.Machine

variable {s : State} {x y : Reg} {n : Fin 16}

/-- The state that `DRW` leaves: its drawing on the screen, its collision in VF. 44_display R192. -/
def State.drawn (s : State) (x y : Reg) (n : Fin 16) : State :=
  (s.setFb (s.drawing x y n).fb).setReg VF (flagByte (s.drawing x y n).hit)

/-- 44_display R192, the spec's decision D5. -/
theorem exec_drw_eq_drawn (h : n.val = 0 ∨ s.base + n.val - 1 ≤ 0xFFF) :
    exec (.drw x y n) s = .next (s.drawn x y n) :=
  exec_drw_of_inBounds h

/-- VF is the one register `DRW` writes. 44_display R192. -/
theorem State.reg_drawn_of_ne {r : Reg} (h : r ≠ VF) : (s.drawn x y n).reg r = s.reg r :=
  State.reg_setReg_of_ne _ _ h

/-- 44_display R192. -/
theorem State.reg_VF_drawn : (s.drawn x y n).reg VF = flagByte (s.drawing x y n).hit :=
  State.reg_setReg_self ..

/-- A second draw has the first one's sprite at the first one's place, where neither coordinate is VF.
44_display R192. -/
theorem State.spritePixel_drawn (hx : x ≠ VF) (hy : y ≠ VF) (cy : Fin 32) (cx : Fin 64) :
    (s.drawn x y n).spritePixel x y n cy cx = s.spritePixel x y n cy cx := by
  simp only [State.spritePixel, State.reg_drawn_of_ne hx, State.reg_drawn_of_ne hy]
  rfl

/-- Each cell is toggled twice or not at all. 44_display R192. -/
theorem State.drawn_drawn_fb (hx : x ≠ VF) (hy : y ≠ VF) : ((s.drawn x y n).drawn x y n).fb = s.fb := by
  refine Framebuffer.ext fun cy cx => ?_
  calc ((s.drawn x y n).drawing x y n).fb.cell cy cx
    _ = ((s.drawing x y n).fb.cell cy cx ^^ s.spritePixel x y n cy cx) := by
        rw [State.cell_drawing, State.spritePixel_drawn hx hy]
        rfl
    _ = s.fb.cell cy cx := by rw [State.cell_drawing, Bool.xor_assoc, Bool.xor_self, Bool.xor_false]

/-- Nothing on the screen, nothing to collide with. 44_display R192. -/
theorem State.hit_drawing_of_blank (h : ∀ cy cx, s.fb.cell cy cx = false) : (s.drawing x y n).hit = false := by
  refine Bool.eq_false_iff.2 fun hhit => ?_
  obtain ⟨cy, cx, -, hcell⟩ := (s.drawing_spec x y n).2.1 hhit
  exact Bool.eq_false_iff.1 (h cy cx) hcell

/-- Drawn on a blank screen, a sprite meets itself in each of its pixels. 44_display R192. -/
theorem State.hit_drawing_drawn_of_blank (hx : x ≠ VF) (hy : y ≠ VF) (h : ∀ cy cx, s.fb.cell cy cx = false) :
    ((s.drawn x y n).drawing x y n).hit = true ↔ ∃ cy cx, s.spritePixel x y n cy cx = true := by
  have hcell (cy : Fin 32) (cx : Fin 64) : (s.drawn x y n).fb.cell cy cx = s.spritePixel x y n cy cx := by
    rw [← Bool.false_xor (s.spritePixel x y n cy cx), ← h cy cx]
    exact s.cell_drawing x y n cy cx
  simp only [(State.drawing_spec _ x y n).2, State.spritePixel_drawn hx hy, hcell, and_self]

/-- A sprite has a pixel over some cell exactly when one of its bits is 1. 44_display R192. -/
theorem State.exists_spritePixel : (∃ cy cx, s.spritePixel x y n cy cx = true) ↔
    ∃ r c, r < n.val ∧ c < 8 ∧ (s.mem.read (s.base + r)).getLsbD (7 - c) = true := by
  constructor
  · rintro ⟨cy, cx, hp⟩
    obtain ⟨r, c, hr, hc, rfl, rfl⟩ := s.exists_wrap_of_spritePixel x y n hp
    exact ⟨r, c, hr, hc, s.spritePixel_wrap x y hr hc ▸ hp⟩
  · rintro ⟨r, c, hr, hc, hbit⟩
    exact ⟨_, _, (s.spritePixel_wrap x y hr hc).trans hbit⟩

/-- 10_state R22. -/
theorem flagByte_eq_one_iff {c : Bool} : flagByte c = 1 ↔ c = true := by
  cases c <;> decide

/-- Settles O55: `State.drawn_drawn_fb`, and on a blank screen the two collisions. -/
theorem drawTwiceRestores : Obligations.DrawTwiceRestores := by
  intro x y n s t hx hy hin h
  obtain rfl := Host.Outcome.next.inj ((exec_drw_eq_drawn hin).symm.trans h)
  refine ⟨_, exec_drw_eq_drawn hin, State.drawn_drawn_fb hx hy, fun hblank => ⟨?_, ?_⟩⟩
  · rw [State.reg_VF_drawn, State.hit_drawing_of_blank hblank]
    rfl
  · rw [State.reg_VF_drawn, flagByte_eq_one_iff, State.hit_drawing_drawn_of_blank hx hy hblank,
      State.exists_spritePixel]

end Sys2Proof.Machine
end
